-- ==== Sys2Proof/Word.lean ====
section
/-! DEFINITION. The widths the spec fixes: a data byte, a 16-bit bus address (00_scope.md R10) and
the 26-bit transaction word (30_encoding.md R70). -/

namespace Sys2Proof

/-- The addressable unit and the datum of every access (R10, R40). -/
abbrev Byte := BitVec 8

/-- An address of either bus side, 16 bits on both (R10, 92_eei_decisions.md D19). -/
abbrev Addr := BitVec 16

/-- A transaction word `T` (R70). -/
abbrev TWord := BitVec 26

end Sys2Proof
end

