-- ==== Sys2Proof/Config.lean ====
section
/-! DEFINITION. What an implementation fixes. The block's own constants are none of it (00_scope.md
R10: "none of them configurable"); they stand in the definitions as the rules write them: 0x8000,
0xC000, 0x2000, 16384, 8192, 0x1F. The descriptor is data that LOAD stores in the state (R7). What is
left is the one open parameter. -/

namespace Sys2Proof.Config

/-- `MIRROR_CODE_VERTICAL` (R7, 92_eei_decisions.md D8): the number the external mirroring register
takes for "vertical". The spec leaves it open, so it has no value here; no rule reads it. Log 14. -/
opaque mirrorCodeVertical : Nat

end Sys2Proof.Config
end

