-- ==== Sys2Proof/Syntax.lean ====
section
/-! DEFINITION. The two bus sides, the two access kinds, and the nine decode classes of
30_encoding.md R71, one constructor per mnemonic of spec/opcode_table.json. A read carries its
address only: the DATA field of a read is ignored (R72, log 20). -/

namespace Sys2Proof

/-- The field SIDE (R70): which bus drives the transaction. -/
inductive Side where
  | cpu
  | ppu
  deriving DecidableEq, Repr

/-- The field RW (R70). -/
inductive Access where
  | read
  | write
  deriving DecidableEq, Repr

/-- A bus transaction, sorted into its decode class (R71). -/
inductive Instr where
  /-- RDPRG.SW (R90): CPU read in the switchable window. -/
  | rdprgSw (addr : Addr)
  /-- RDPRG.FIX (R91): CPU read in the fixed window. -/
  | rdprgFix (addr : Addr)
  /-- RDPRG.LOW (R92): CPU read below 0x8000, outside the contract. -/
  | rdprgLow (addr : Addr)
  /-- WRPRG.SEL (R93): bank select. -/
  | wrprgSel (addr : Addr) (value : Byte)
  /-- WRPRG.NOP (R94): CPU write below 0x8000. -/
  | wrprgNop (addr : Addr) (value : Byte)
  /-- RDCHR.WIN (R110): PPU read in the CHR window. -/
  | rdchrWin (addr : Addr)
  /-- RDCHR.OUT (R111): PPU read outside the CHR window. -/
  | rdchrOut (addr : Addr)
  /-- WRCHR.WIN (R113): PPU write in the CHR window. -/
  | wrchrWin (addr : Addr) (value : Byte)
  /-- WRCHR.OUT (R114): PPU write outside the CHR window. -/
  | wrchrOut (addr : Addr) (value : Byte)
  deriving DecidableEq, Repr

end Sys2Proof
end

