-- ==== Sys2Proof/WellFormed.lean ====
section
/-! DEFINITION. Which terms of `Instr` are transactions: the address lies in the range of its decode
class (30_encoding.md R71). A term that fails the check is no transaction; no word decodes to it. -/

namespace Sys2Proof

/-- The address condition of the instruction's decode class (R71, column "ADDR condition"). -/
def Instr.wellFormed : Instr → Bool
  | .rdprgSw a => 0x8000 ≤ a.toNat && a.toNat < 0xC000
  | .rdprgFix a => 0xC000 ≤ a.toNat
  | .rdprgLow a => a.toNat < 0x8000
  | .wrprgSel a _ => 0x8000 ≤ a.toNat
  | .wrprgNop a _ => a.toNat < 0x8000
  | .rdchrWin a => a.toNat < 0x2000
  | .rdchrOut a => 0x2000 ≤ a.toNat
  | .wrchrWin a _ => a.toNat < 0x2000
  | .wrchrOut a _ => 0x2000 ≤ a.toNat

end Sys2Proof
end

