-- ==== Sys2Proof/Decode.lean ====
section
/-! DEFINITION. The transaction word (30_encoding.md R70): its fields, the decoder (total, R71), the
encoder (R70, R72), the opcode table of R77 as data, and the decoder of byte strings. -/

namespace Sys2Proof

/-! ### Fields of a word (R70) -/

/-- Bit 25. -/
def sideField (t : TWord) : Side := if t.getLsbD 25 then .ppu else .cpu

/-- Bit 24. -/
def rwField (t : TWord) : Access := if t.getLsbD 24 then .write else .read

/-- Bits 23:8. -/
def addrField (t : TWord) : Addr := t.extractLsb' 8 16

/-- Bits 7:0. -/
def dataField (t : TWord) : Byte := t.extractLsb' 0 8

/-! ### Decoder (R71) -/

/-- The decode class of a transaction's fields (R71). The comparisons are the source's. The `value`
operand of a write is DATA; on a read DATA is ignored (R72). -/
def classify (side : Side) (rw : Access) (addr : Addr) (data : Byte) : Instr :=
  match side, rw with
  | .cpu, .read =>
    if addr.toNat < 0x8000 then .rdprgLow addr
    else if addr.toNat < 0xC000 then .rdprgSw addr
    else .rdprgFix addr
  | .cpu, .write =>
    if addr.toNat < 0x8000 then .wrprgNop addr data else .wrprgSel addr data
  | .ppu, .read =>
    if addr.toNat < 0x2000 then .rdchrWin addr else .rdchrOut addr
  | .ppu, .write =>
    if addr.toNat < 0x2000 then .wrchrWin addr data else .wrchrOut addr data

/-- The instruction a word selects. Total: "every one of the 2^26 words selects exactly one row" (R71);
there is no illegal word (R78). -/
def decode (t : TWord) : Instr :=
  classify (sideField t) (rwField t) (addrField t) (dataField t)

/-! ### Encoder (R70, R72) -/

/-- The bit of the field SIDE. -/
def Side.bit : Side → BitVec 1
  | .cpu => 0
  | .ppu => 1

/-- The bit of the field RW. -/
def Access.bit : Access → BitVec 1
  | .read => 0
  | .write => 1

/-- The word with the given fields: SIDE, RW, ADDR, DATA from bit 25 down (R70). -/
def pack (side : Side) (rw : Access) (addr : Addr) (data : Byte) : TWord :=
  side.bit ++ rw.bit ++ addr ++ data

/-- The side of an instruction (R71). -/
def Instr.side : Instr → Side
  | .rdprgSw _ | .rdprgFix _ | .rdprgLow _ | .wrprgSel _ _ | .wrprgNop _ _ => .cpu
  | .rdchrWin _ | .rdchrOut _ | .wrchrWin _ _ | .wrchrOut _ _ => .ppu

/-- The access kind of an instruction (R71). -/
def Instr.rw : Instr → Access
  | .rdprgSw _ | .rdprgFix _ | .rdprgLow _ | .rdchrWin _ | .rdchrOut _ => .read
  | .wrprgSel _ _ | .wrprgNop _ _ | .wrchrWin _ _ | .wrchrOut _ _ => .write

/-- The address operand. -/
def Instr.addr : Instr → Addr
  | .rdprgSw a | .rdprgFix a | .rdprgLow a | .rdchrWin a | .rdchrOut a => a
  | .wrprgSel a _ | .wrprgNop a _ | .wrchrWin a _ | .wrchrOut a _ => a

/-- The DATA field of the canonical encoding: the value of a write, 0x00 on a read (R72). -/
def Instr.data : Instr → Byte
  | .rdprgSw _ | .rdprgFix _ | .rdprgLow _ | .rdchrWin _ | .rdchrOut _ => 0
  | .wrprgSel _ v | .wrprgNop _ v | .wrchrWin _ v | .wrchrOut _ v => v

/-- The canonical word of an instruction (R70, R72). -/
def encode (i : Instr) : TWord := pack i.side i.rw i.addr i.data

/-- The name of an instruction's rows in the opcode table (R71). -/
def Instr.mnemonic : Instr → String
  | .rdprgSw _ => "RDPRG.SW"
  | .rdprgFix _ => "RDPRG.FIX"
  | .rdprgLow _ => "RDPRG.LOW"
  | .wrprgSel _ _ => "WRPRG.SEL"
  | .wrprgNop _ _ => "WRPRG.NOP"
  | .rdchrWin _ => "RDCHR.WIN"
  | .rdchrOut _ => "RDCHR.OUT"
  | .wrchrWin _ _ => "WRCHR.WIN"
  | .wrchrOut _ _ => "WRCHR.OUT"

/-! ### The opcode table (R77) -/

/-- One row of the opcode table: a word `t` selects it when `t &&& mask = pattern`. -/
structure Row where
  mnemonic : String
  mask : TWord
  pattern : TWord
  deriving DecidableEq, Repr

/-- Whether a word selects a row (R77). -/
def Row.selects (r : Row) (t : TWord) : Bool := t &&& r.mask == r.pattern

/-- The thirteen rows of R77, in its order. -/
def opcodeRows : List Row :=
  [⟨"RDPRG.SW", 0x3C00000, 0x0800000⟩,
   ⟨"RDPRG.FIX", 0x3C00000, 0x0C00000⟩,
   ⟨"RDPRG.LOW", 0x3800000, 0x0000000⟩,
   ⟨"WRPRG.SEL", 0x3800000, 0x1800000⟩,
   ⟨"WRPRG.NOP", 0x3800000, 0x1000000⟩,
   ⟨"RDCHR.WIN", 0x3E00000, 0x2000000⟩,
   ⟨"RDCHR.OUT", 0x3E00000, 0x2200000⟩,
   ⟨"RDCHR.OUT", 0x3C00000, 0x2400000⟩,
   ⟨"RDCHR.OUT", 0x3800000, 0x2800000⟩,
   ⟨"WRCHR.WIN", 0x3E00000, 0x3000000⟩,
   ⟨"WRCHR.OUT", 0x3E00000, 0x3200000⟩,
   ⟨"WRCHR.OUT", 0x3C00000, 0x3400000⟩,
   ⟨"WRCHR.OUT", 0x3800000, 0x3800000⟩]

/-! ### Words out of bytes

The spec gives no byte layout of a word. DESIGN CHOICE (log 21): four bytes, the least significant
first, bits 31 to 26 zero. -/

/-- Why bytes are no transaction word. -/
inductive DecodeError where
  /-- Fewer than four bytes. -/
  | tooFewBytes
  /-- A bit above bit 25 is set: the number is over 0x3FFFFFF (R70). -/
  | widerThanWord
  deriving DecidableEq, Repr

/-- The word in the first four bytes, and the bytes after it. -/
def wordOfBytes : List Byte → Except DecodeError (TWord × List Byte)
  | b0 :: b1 :: b2 :: b3 :: rest =>
    let n : BitVec 32 := b3 ++ b2 ++ b1 ++ b0
    if n.toNat < 2 ^ 26 then .ok (n.setWidth 26, rest) else .error .widerThanWord
  | _ => .error .tooFewBytes

/-- The instruction in the first four bytes, and the bytes after it. -/
def decodeBytes (bs : List Byte) : Except DecodeError (Instr × List Byte) :=
  match wordOfBytes bs with
  | .ok (t, rest) => .ok (decode t, rest)
  | .error e => .error e

/-- The four bytes of a number below 2^32, the least significant first. -/
def fourBytes (n : Nat) : List Byte :=
  [BitVec.ofNat 8 n, BitVec.ofNat 8 (n / 2 ^ 8), BitVec.ofNat 8 (n / 2 ^ 16),
   BitVec.ofNat 8 (n / 2 ^ 24)]

/-- The word whose low `nbits` bits are those of `w` and whose other bits are 0, where it is one. -/
def tableWord (nbits w : Nat) : Option TWord :=
  let n := w % 2 ^ nbits
  if n < 2 ^ 32 then
    match wordOfBytes (fourBytes n) with
    | .ok (t, _) => some t
    | .error _ => none
  else none

/-- The instruction the decoder reads from a word of the opcode table, bit 0 least significant. -/
def decodeTableWord (nbits w : Nat) : Option Instr := (tableWord nbits w).map decode

end Sys2Proof
end

