-- ==== Sys2Proof/Machine/State.lean ====
section
/-! DEFINITION. The state of the block and of a run (10_state.md R20 to R28, R35), its stops, and the
state after reset. Plain data throughout. -/

namespace Sys2Proof.Machine

/-- An array of bytes indexed from 0 (00_scope.md R7, R14): its length, and the bytes that differ from
`Memory.unlisted` in rising order of index. Every array has exactly one such form (log 2). -/
structure Memory where
  size : Nat
  cells : List Host.Cell
  deriving DecidableEq, Repr

/-- The cartridge descriptor, LOAD's operand (R7, 70_reset_and_hazards.md R150). -/
structure Descriptor where
  /-- `PRG_banks`: count of 16 KiB PRG banks. -/
  prgBanks : Nat
  /-- `PRG_ROM`. -/
  prgRom : Memory
  /-- `CHR_banks`: count of 8 KiB CHR banks; 0 is CHR RAM mode. -/
  chrBanks : Nat
  /-- `CHR_RAM_size`: byte capacity of CHR RAM, read in RAM mode only. -/
  chrRamSize : Nat
  /-- `CHR_INIT`: the ROM contents, or the RAM's first contents. -/
  chrInit : Memory
  deriving DecidableEq, Repr

/-- The mirroring modes the glossary names (R27). -/
inductive Mirror where
  | vertical
  | horizontal
  deriving DecidableEq, Repr

/-- The response byte of one read and the side it went to (00_scope.md R15). -/
structure Response where
  side : Side
  byte : Byte
  deriving DecidableEq, Repr

/-- What one step consumes (10_state.md R33): LOAD, or a bus transaction as its word (R70, R73). -/
inductive Event where
  | load (d : Descriptor)
  | txn (t : TWord)
  deriving DecidableEq, Repr

/-- Everything the spec gives the machine, and the run's input and output. -/
structure State where
  /-- LOAD has happened; before it every other field is unspecified (R35, R152). Log 6. -/
  loaded : Bool
  /-- The configuration LOAD stored, constant for the run (R7, R150). -/
  config : Descriptor
  /-- `CLAMP` (R22): offset of the last PRG bank, set by LOAD. Log 16. -/
  clamp : Nat
  /-- `BANKPTR` (R20): offset of the bank in the switchable window. -/
  bankptr : Nat
  /-- `CHR` (R23). -/
  chr : Memory
  /-- `MIRROR` (R27): what the block drives onto the external register. -/
  mirror : Mirror
  /-- `MIRROR_WRITES` (R28): ghost count of `set_mirroring` calls. No operation reads it. Log 15. -/
  mirrorWrites : Nat
  /-- The responses of the reads since LOAD, oldest first (70_reset_and_hazards.md R157). Log 13. -/
  responses : List Response
  /-- The events still to be taken, next first (10_state.md R25, R33). Log 3. -/
  pending : List Event
  deriving DecidableEq, Repr

/-- The hardware raises nothing (60_exceptions.md R130). These two stand for an index at which an array
is not defined (00_scope.md R14); no state that satisfies the invariant of 10_state.md R36 meets them
(20_memory.md R52). Safe. Log 11. -/
inductive Fault where
  /-- Raised by RDPRG.SW and RDPRG.FIX when the offset is not below the length of PRG_ROM. Safe: the
  machine stops where the spec defines no byte. -/
  | prgOffsetOutsideRom
  /-- Raised by RDCHR.WIN and WRCHR.WIN when the offset is not below the length of CHR. Safe: the
  machine stops where the spec defines no byte. -/
  | chrOffsetOutsideArray
  deriving DecidableEq, Repr

/-- Inputs the model gives no meaning. -/
inductive Refusal where
  /-- Raised by an arm of `exec` whose instruction has no meaning yet; no arm does. Safe. -/
  | notModelled (mnemonic : String)
  /-- `read_below_window`: raised by RDPRG.LOW (R92, R134). Safe. Log 5. -/
  | readBelowWindow
  /-- `malformed_descriptor`: raised by LOAD (R135, R150). Safe. Log 7. -/
  | malformedDescriptor
  /-- Raised by every transaction before LOAD (R152). Safe. Log 6. -/
  | beforeLoad
  /-- Raised by LOAD when a list of cells in the descriptor is not the form of any byte array. Safe: such
  a term is no descriptor. Log 9. -/
  | notAnArray
  /-- Raised by a meaning whose address lies outside its decode class. Safe: no word decodes to such a
  term. Log 10. -/
  | illFormed
  deriving DecidableEq, Repr

/-- The three outcomes over this machine. -/
abbrev Result := Host.Outcome State Fault Refusal

/-- The descriptor of `State.reset`. The spec leaves the descriptor to the host's loader (R7). DESIGN
CHOICE, unsafe (log 1): every count at its least legal value, no byte listed. -/
def Descriptor.least : Descriptor where
  prgBanks := 1
  prgRom := { size := 16384, cells := [] }
  chrBanks := 0
  chrRamSize := 0
  chrInit := { size := 0, cells := [] }

/-- The state right after LOAD, the only reset (R35), for the descriptor `Descriptor.least`: BANKPTR 0,
CLAMP (PRG_banks - 1) * 16384, CHR the descriptor's bytes, MIRROR VERTICAL, MIRROR_WRITES 1. -/
def State.reset : State where
  loaded := true
  config := Descriptor.least
  clamp := 0
  bankptr := 0
  chr := Descriptor.least.chrInit
  mirror := .vertical
  mirrorWrites := 1
  responses := []
  pending := []

end Sys2Proof.Machine
end

