-- ==== Sys2Proof/Machine/Ops.lean ====
section
/-! DEFINITION. The named operations over arrays, state and events, and LOAD. There is no exception to
take or return from (60_exceptions.md R130, R136), hence no operation for it. -/

namespace Sys2Proof.Machine

/-! ### Arrays of bytes -/

/-- What an index that is not listed reads as. A choice of representation, not of contents: an array
with another byte there lists it (log 2). -/
def Memory.unlisted : Byte := 0

/-- The byte a list of cells gives an index. -/
def cellsGet : List Host.Cell → Nat → Byte
  | [], _ => Memory.unlisted
  | (a, b) :: rest, i => if a = i then b else cellsGet rest i

/-- The list with the byte at one index replaced, in canonical form. -/
def cellsPut : List Host.Cell → Nat → Byte → List Host.Cell
  | [], i, v => if v = Memory.unlisted then [] else [(i, v)]
  | (a, b) :: rest, i, v =>
    if i < a then (if v = Memory.unlisted then (a, b) :: rest else (i, v) :: (a, b) :: rest)
    else if i = a then (if v = Memory.unlisted then rest else (i, v) :: rest)
    else (a, b) :: cellsPut rest i v

/-- Indices rise strictly from `lo`, stay below `size`, and no byte is the unlisted one. -/
def cellsWf (size : Nat) : Nat → List Host.Cell → Bool
  | _, [] => true
  | lo, (a, b) :: rest => lo ≤ a && a < size && b != Memory.unlisted && cellsWf size (a + 1) rest

/-- The canonical form of an array. -/
def Memory.wf (m : Memory) : Bool := cellsWf m.size 0 m.cells

/-- `M[i]` (00_scope.md R14): defined only below the array's length. -/
def Memory.read (m : Memory) (i : Nat) : Option Byte :=
  if i < m.size then some (cellsGet m.cells i) else none

/-- `M[i] <- v` (R14): "replace that byte; all other bytes unchanged". -/
def Memory.write (m : Memory) (i : Nat) (v : Byte) : Option Memory :=
  if i < m.size then some { m with cells := cellsPut m.cells i v } else none

/-! ### Updates of the state -/

/-- `return b`: the transaction's response goes to its side (R14, R15). -/
def State.respond (s : State) (side : Side) (b : Byte) : State :=
  { s with responses := s.responses ++ [⟨side, b⟩] }

/-- `BANKPTR <- v` (R14). -/
def State.setBankptr (s : State) (v : Nat) : State := { s with bankptr := v }

/-- The CHR array replaced. -/
def State.setChr (s : State) (m : Memory) : State := { s with chr := m }

/-- The PRG_ROM array replaced. No operation of the block does this (20_memory.md R53). -/
def State.setPrgRom (s : State) (m : Memory) : State :=
  { s with config := { s.config with prgRom := m } }

/-- The events still to be taken replaced. -/
def State.setPending (s : State) (es : List Event) : State := { s with pending := es }

/-- `BANK` (10_state.md R21). -/
def State.bank (s : State) : Nat := s.bankptr / 16384

/-- The number driven onto the external mirroring register, where the spec names it (R27, D8). -/
def State.mirrorCode (s : State) : Option Nat :=
  match s.mirror with
  | .vertical => some Config.mirrorCodeVertical
  | .horizontal => none

/-! ### What every transaction does -/

/-- The frame of a transaction: refused before LOAD (70_reset_and_hazards.md R152), and refused on a
term that is no transaction (log 10); otherwise its own effect. -/
def transact (i : Instr) (s : State) (effect : Result) : Result :=
  if s.loaded then (if i.wellFormed then effect else .refused .illFormed)
  else .refused .beforeLoad

/-- `return M[i]`: the response is the byte of an array. -/
def respondFrom (m : Memory) (i : Nat) (side : Side) (outside : Fault) (s : State) : Result :=
  match m.read i with
  | some b => .next (s.respond side b)
  | none => .fault outside

/-- `CHR[i] <- v`. -/
def storeChr (i : Nat) (v : Byte) (s : State) : Result :=
  match s.chr.write i v with
  | some m => .next (s.setChr m)
  | none => .fault .chrOffsetOutsideArray

/-! ### LOAD (70_reset_and_hazards.md R150) -/

/-- The length the CHR array must have (00_scope.md R9). -/
def Descriptor.chrLength (d : Descriptor) : Nat :=
  if d.chrBanks = 0 then d.chrRamSize else d.chrBanks * 8192

/-- `WellFormed(d)` (R163): the four tests of R150. -/
def Descriptor.wellFormed (d : Descriptor) : Bool :=
  d.prgBanks != 0 && d.prgRom.size == d.prgBanks * 16384
    && d.chrInit.size == d.chrLength

/-- Both lists of cells are forms of byte arrays (log 9). -/
def Descriptor.canonical (d : Descriptor) : Bool := d.prgRom.wf && d.chrInit.wf

/-- `CLAMP` as LOAD computes it (R22, R150). -/
def Descriptor.clamp (d : Descriptor) : Nat := (d.prgBanks - 1) * 16384

/-- The state LOAD constructs (R150, 10_state.md R35): wholly given by the descriptor, but for the
events that follow. `MIRROR <- VERTICAL` is the one `set_mirroring` call (60_exceptions.md R140). -/
def State.afterLoad (d : Descriptor) (rest : List Event) : State where
  loaded := true
  config := d
  clamp := d.clamp
  bankptr := 0
  chr := d.chrInit
  mirror := .vertical
  mirrorWrites := 1
  responses := []
  pending := rest

/-- LOAD (R150). On a live block it starts another run, and nothing carries over (R151, D15, log 8). -/
def load (d : Descriptor) (s : State) : Result :=
  if d.canonical then
    if d.wellFormed then .next (State.afterLoad d s.pending) else .refused .malformedDescriptor
  else .refused .notAnArray

/-- No event is pending: the block never acts on its own (10_state.md R33). Log 4. -/
def idle (s : State) : Result := .next s

end Sys2Proof.Machine
end

