-- ==== Sys2Proof/Machine/Operands.lean ====
section
/-! DEFINITION. Operand assembly of the bank select (30_encoding.md R75) and the address translation of
both sides (20_memory.md R47 to R50). All arithmetic is exact on natural numbers
(40_prg_operations.md R96). -/

namespace Sys2Proof.Machine

/-! ### Bank select (R74, R75) -/

/-- `REQ = value & 0x1F`. -/
def bankReq (value : Byte) : Nat := (value &&& 0x1F).toNat

/-- `SEL = REQ mod PRG_banks`, a true modulo. -/
def bankSel (value : Byte) (prgBanks : Nat) : Nat := bankReq value % prgBanks

/-- `new_ptr = SEL * 16384`. -/
def newBankptr (value : Byte) (prgBanks : Nat) : Nat := bankSel value prgBanks * 16384

/-! ### PRG translation (R47) -/

/-- The switchable window: `BANKPTR + (a - 0x8000)`. -/
def switchableOff (bankptr : Nat) (a : Addr) : Nat := bankptr + (a.toNat - 0x8000)

/-- The fixed window: `CLAMP + (a - 0xC000)`. -/
def fixedOff (clamp : Nat) (a : Addr) : Nat := clamp + (a.toNat - 0xC000)

/-- `prg_off`; meant for `a >= 0x8000` only. -/
def prgOff (bankptr clamp : Nat) (a : Addr) : Nat :=
  if a.toNat < 0xC000 then switchableOff bankptr a else fixedOff clamp a

/-! ### CHR translation and enables (R49, R50) -/

/-- `chr_off`, over all natural numbers: "wrapped defensively" in ROM mode. -/
def chrOff (d : Descriptor) (a : Nat) : Nat :=
  if d.chrBanks = 0 then a else a % (d.chrBanks * 8192)

/-- The RAM mode capacity test: RAM mode and `a < CHR_RAM_size`. -/
def inChrRam (d : Descriptor) (a : Addr) : Bool := d.chrBanks == 0 && a.toNat < d.chrRamSize

/-- `chr_en`: the window test first, then the mode and the capacity. -/
def chrEn (d : Descriptor) (a : Addr) (rw : Access) : Bool :=
  a.toNat < 0x2000 &&
    match rw with
    | .read => d.chrBanks != 0 || a.toNat < d.chrRamSize
    | .write => inChrRam d a

/-- `chr_we`. -/
def chrWe (d : Descriptor) (a : Addr) (rw : Access) : Bool := rw == .write && chrEn d a .write

end Sys2Proof.Machine
end

