-- ==== Sys2Proof/Machine/Chr.lean ====
section
/-! DEFINITION. The PPU-side operations, one meaning per decode class (41_chr_operations.md R110 to
R114). -/

namespace Sys2Proof.Machine

/-- RDCHR.WIN (R110). RAM mode: the byte inside the capacity, else 0x00. ROM mode: the byte at
`ADDR mod (CHR_banks * 8192)`. -/
def execRdchrWin (addr : Addr) (s : State) : Result :=
  transact (.rdchrWin addr) s
    (if s.config.chrBanks = 0 then
      if addr.toNat < s.config.chrRamSize then
        respondFrom s.chr addr.toNat .ppu .chrOffsetOutsideArray s
      else .next (s.respond .ppu 0)
    else
      respondFrom s.chr (addr.toNat % (s.config.chrBanks * 8192)) .ppu
        .chrOffsetOutsideArray s)

/-- RDCHR.OUT (R111): `return 0x00`. -/
def execRdchrOut (addr : Addr) (s : State) : Result :=
  transact (.rdchrOut addr) s (.next (s.respond .ppu 0))

/-- WRCHR.WIN (R113): stores in RAM mode inside the capacity; "every other case: no state change". -/
def execWrchrWin (addr : Addr) (value : Byte) (s : State) : Result :=
  transact (.wrchrWin addr value) s
    (if s.config.chrBanks = 0 ∧ addr.toNat < s.config.chrRamSize then storeChr addr.toNat value s
    else .next s)

/-- WRCHR.OUT (R114): no state change. -/
def execWrchrOut (addr : Addr) (value : Byte) (s : State) : Result :=
  transact (.wrchrOut addr value) s (.next s)

end Sys2Proof.Machine
end

