-- ==== Sys2Proof/Machine/Prg.lean ====
section
/-! DEFINITION. The CPU-side operations, one meaning per decode class (40_prg_operations.md R90 to R95). -/

namespace Sys2Proof.Machine

/-- RDPRG.SW (R90): `return PRG_ROM[BANKPTR + (ADDR - 0x8000)]`. -/
def execRdprgSw (addr : Addr) (s : State) : Result :=
  transact (.rdprgSw addr) s
    (respondFrom s.config.prgRom (switchableOff s.bankptr addr) .cpu .prgOffsetOutsideRom s)

/-- RDPRG.FIX (R91): `return PRG_ROM[CLAMP + (ADDR - 0xC000)]`. -/
def execRdprgFix (addr : Addr) (s : State) : Result :=
  transact (.rdprgFix addr) s
    (respondFrom s.config.prgRom (fixedOff s.clamp addr) .cpu .prgOffsetOutsideRom s)

/-- RDPRG.LOW (R92): `refuse(read_below_window)`. -/
def execRdprgLow (addr : Addr) (s : State) : Result :=
  transact (.rdprgLow addr) s (.refused .readBelowWindow)

/-- WRPRG.SEL (R93): `BANKPTR <- (REQ mod PRG_banks) * 16384`. Bits 7:5 of the value and the address
within 0x8000 to 0xFFFF have no effect (R95, 30_encoding.md R78). -/
def execWrprgSel (addr : Addr) (value : Byte) (s : State) : Result :=
  transact (.wrprgSel addr value) s (.next (s.setBankptr (newBankptr value s.config.prgBanks)))

/-- WRPRG.NOP (R94): no state change. -/
def execWrprgNop (addr : Addr) (value : Byte) (s : State) : Result :=
  transact (.wrprgNop addr value) s (.next s)

end Sys2Proof.Machine
end

