-- ==== Sys2Proof/Machine/Dispatch.lean ====
section
/-! DEFINITION. One arm per decode class of 30_encoding.md R71. -/

namespace Sys2Proof.Machine

def exec (i : Instr) (s : State) : Host.Outcome State Fault Refusal :=
  match i with
  | .rdprgSw addr => Sys2Proof.Machine.execRdprgSw addr s
  | .rdprgFix addr => Sys2Proof.Machine.execRdprgFix addr s
  | .rdprgLow addr => Sys2Proof.Machine.execRdprgLow addr s
  | .wrprgSel addr value => Sys2Proof.Machine.execWrprgSel addr value s
  | .wrprgNop addr value => Sys2Proof.Machine.execWrprgNop addr value s
  | .rdchrWin addr => Sys2Proof.Machine.execRdchrWin addr s
  | .rdchrOut addr => Sys2Proof.Machine.execRdchrOut addr s
  | .wrchrWin addr value => Sys2Proof.Machine.execWrchrWin addr value s
  | .wrchrOut addr value => Sys2Proof.Machine.execWrchrOut addr value s

end Sys2Proof.Machine
end

