-- ==== Sys2Proof/Machine/Step.lean ====
section
/-! DEFINITION. One step: the next event is consumed and takes its whole effect (10_state.md R33,
20_memory.md R54), and the host's way to place a transaction. -/

namespace Sys2Proof.Machine

/-- One step (00_scope.md R15, 10_state.md R33). -/
def step (s : State) : Host.Outcome State Fault Refusal :=
  match s.pending with
  | [] => idle s
  | .load d :: rest => load d (s.setPending rest)
  | .txn t :: rest => exec (decode t) (s.setPending rest)

/-- The state with the transaction of a table word as its next event. The bus layer supplies the
transactions (10_state.md R25); this stands for its doing so (log 3). A number that is no transaction
word cannot be supplied and leaves the state as it is. -/
def State.withFetchWord (s : State) (nbits w : Nat) : State :=
  match tableWord nbits w with
  | some t => s.setPending (.txn t :: s.pending)
  | none => s

end Sys2Proof.Machine
end

