-- ==== Sys2Proof/Machine/Bus.lean ====
section
/-! DEFINITION. A second account of the block, as the spec also gives it, for the decode-class rules to
be compared with: the four operations with their tests in the order of 60_exceptions.md R133, and the
interface signals with the output multiplexer of 10_state.md R34 and 20_memory.md R47 to R51. -/

namespace Sys2Proof.Machine

/-! ### The four operations, tests in order (R133) -/

/-- readPRG: below 0x8000 outside the contract, below 0xC000 the switchable window, else the fixed. -/
def readPrg (a : Addr) (s : State) : Result :=
  if a.toNat < 0x8000 then .refused .readBelowWindow
  else if a.toNat < 0xC000 then
    respondFrom s.config.prgRom (s.bankptr + (a.toNat - 0x8000)) .cpu
      .prgOffsetOutsideRom s
  else
    respondFrom s.config.prgRom (s.clamp + (a.toNat - 0xC000)) .cpu .prgOffsetOutsideRom s

/-- writePRG: below 0x8000 a no-op, else a bank select. -/
def writePrg (a : Addr) (value : Byte) (s : State) : Result :=
  if a.toNat < 0x8000 then .next s
  else .next (s.setBankptr ((value &&& 0x1F).toNat % s.config.prgBanks
    * 16384))

/-- readCHR: outside the window 0, then the mode, then the capacity. -/
def readChr (a : Addr) (s : State) : Result :=
  if 0x2000 ≤ a.toNat then .next (s.respond .ppu 0)
  else if s.config.chrBanks = 0 then
    if a.toNat < s.config.chrRamSize then respondFrom s.chr a.toNat .ppu .chrOffsetOutsideArray s
    else .next (s.respond .ppu 0)
  else respondFrom s.chr (chrOff s.config a.toNat) .ppu .chrOffsetOutsideArray s

/-- writeCHR: ROM mode, outside the window and beyond the capacity dropped, else a store. -/
def writeChr (a : Addr) (value : Byte) (s : State) : Result :=
  if s.config.chrBanks ≠ 0 then .next s
  else if 0x2000 ≤ a.toNat then .next s
  else if s.config.chrRamSize ≤ a.toNat then .next s
  else storeChr a.toNat value s

/-- The bus layer's call of an operation by SIDE and RW (30_encoding.md R71), refused before LOAD. -/
def busCall (side : Side) (rw : Access) (a : Addr) (data : Byte) (s : State) : Result :=
  if s.loaded then
    match side, rw with
    | .cpu, .read => readPrg a s
    | .cpu, .write => writePrg a data s
    | .ppu, .read => readChr a s
    | .ppu, .write => writeChr a data s
  else .refused .beforeLoad

/-! ### Interface signals (R34), none of them state -/

/-- The outputs of the block while a transaction is presented. -/
structure Signals where
  /-- `PRG_OFF`: the offset a RDPRG in the windows selects. -/
  prgOff : Option Nat
  /-- `CHR_OFF`: the offset a RDCHR or WRCHR in the CHR window selects. -/
  chrOff : Option Nat
  /-- `CHR_EN`. -/
  chrEn : Bool
  /-- `CHR_WE`. -/
  chrWe : Bool
  /-- `DOUT`: the byte a read returns. -/
  dout : Option Byte
  /-- `MIRROR`. -/
  mirror : Mirror
  deriving DecidableEq, Repr

/-- The output multiplexer (R51): PRG_ROM, CHR or the constant 0. None on a write, and none on a CPU
read below 0x8000. -/
def outputMux (side : Side) (rw : Access) (a : Addr) (s : State) : Option Byte :=
  match side, rw with
  | .cpu, .read =>
    if 0x8000 ≤ a.toNat then s.config.prgRom.read (prgOff s.bankptr s.clamp a) else none
  | .ppu, .read =>
    if chrEn s.config a .read then s.chr.read (chrOff s.config a.toNat) else some 0
  | _, .write => none

/-- The signals of R34 for a presented transaction (log 24). -/
def signals (side : Side) (rw : Access) (a : Addr) (s : State) : Signals where
  prgOff :=
    if side = .cpu ∧ rw = .read ∧ 0x8000 ≤ a.toNat then some (prgOff s.bankptr s.clamp a)
    else none
  chrOff := if side = .ppu ∧ a.toNat < 0x2000 then some (chrOff s.config a.toNat) else none
  chrEn := side == .ppu && chrEn s.config a rw
  chrWe := side == .ppu && chrWe s.config a rw
  dout := outputMux side rw a s
  mirror := s.mirror

end Sys2Proof.Machine
end

