-- ==== Sys2Proof/Machine/Platform.lean ====
section
/-! DEFINITION. What the platform does around the block, for the launch premises of
70_reset_and_hazards.md R163 to be said of: the host's moves in the order they happen, and what the
block and the mirroring register hold after them (log 28). The machine itself has no such move (R155). -/

namespace Sys2Proof.Machine

/-- One move of the platform (R153 to R155). -/
inductive HostMove where
  /-- The host calls LOAD. -/
  | load (d : Descriptor)
  /-- A transaction reaches the block: the word its side issued, and the byte on the block's data
  inputs meanwhile. -/
  | call (t : TWord) (inputs : Byte)
  /-- The call in progress returns. -/
  | ret
  /-- Something other than the block writes PRG_ROM. -/
  | writePrgRom (i : Nat) (v : Byte)
  /-- Something other than the block writes CHR. -/
  | writeChr (i : Nat) (v : Byte)
  /-- Something other than the block writes the mirroring register. -/
  | setMirroring (code : Nat)
  deriving DecidableEq, Repr

/-- The transaction the block sees: of a CPU write, the value on its data inputs (R161,
92_eei_decisions.md D12: a bus conflict is put into DATA before the transaction is handed over). -/
def seen (t : TWord) (inputs : Byte) : TWord :=
  if sideField t = .cpu ∧ rwField t = .write then pack .cpu .write (addrField t) inputs else t

/-- The events the moves hand over to the block, in order. -/
def handedOver : List HostMove → List Event
  | [] => []
  | .load d :: h => .load d :: handedOver h
  | .call t inputs :: h => .txn (seen t inputs) :: handedOver h
  | .ret :: h => handedOver h
  | .writePrgRom _ _ :: h => handedOver h
  | .writeChr _ _ :: h => handedOver h
  | .setMirroring _ :: h => handedOver h

/-- The transactions as their sides issued them, in order. -/
def issued : List HostMove → List TWord
  | [] => []
  | .call t _ :: h => t :: issued h
  | .load _ :: h => issued h
  | .ret :: h => issued h
  | .writePrgRom _ _ :: h => issued h
  | .writeChr _ _ :: h => issued h
  | .setMirroring _ :: h => issued h

/-- The moves after the first LOAD. -/
def sinceLoad : List HostMove → List HostMove
  | [] => []
  | .load _ :: h => h
  | .call _ _ :: h => sinceLoad h
  | .ret :: h => sinceLoad h
  | .writePrgRom _ _ :: h => sinceLoad h
  | .writeChr _ _ :: h => sinceLoad h
  | .setMirroring _ :: h => sinceLoad h

/-- No call begins, and no LOAD happens, while a call is in progress; every call returns. -/
def oneAtATime : Bool → List HostMove → Bool
  | busy, [] => !busy
  | busy, .load _ :: h => !busy && oneAtATime false h
  | busy, .call _ _ :: h => !busy && oneAtATime true h
  | busy, .ret :: h => busy && oneAtATime false h
  | busy, .writePrgRom _ _ :: h => oneAtATime busy h
  | busy, .writeChr _ _ :: h => oneAtATime busy h
  | busy, .setMirroring _ :: h => oneAtATime busy h

/-- The block, whether a call is in progress, and the mirroring register, none before anything has
written it (00_scope.md R7, 10_state.md R27). -/
structure Platform where
  block : State
  busy : Bool
  register : Option Nat
  deriving DecidableEq, Repr

/-- The array with a byte replaced, or as it is where it has no such byte. -/
def Memory.poke (m : Memory) (i : Nat) (v : Byte) : Memory := (m.write i v).getD m

/-- The block takes one event; none where it answers no next state. -/
def Platform.take (e : Event) (p : Platform) : Option Platform :=
  match step (p.block.setPending [e]) with
  | .next s => some { p with block := s }
  | .fault _ => none
  | .refused _ => none

/-- One move. A call's whole effect happens as it is made (20_memory.md R55). None where the spec gives
nothing: a call that overlaps another (R158), a return from none, a transaction the block refuses. -/
def Platform.move (p : Platform) : HostMove → Option Platform
  | .load d =>
    if p.busy then none
    else (p.take (.load d)).map fun q => { q with register := q.block.mirrorCode }
  | .call t inputs =>
    if p.busy then none
    else (p.take (.txn (seen t inputs))).map fun q => { q with busy := true }
  | .ret => if p.busy then some { p with busy := false } else none
  | .writePrgRom i v =>
    some { p with block := p.block.setPrgRom (p.block.config.prgRom.poke i v) }
  | .writeChr i v => some { p with block := p.block.setChr (p.block.chr.poke i v) }
  | .setMirroring code => some { p with register := some code }

/-- The platform after the moves, in order. -/
def Platform.follow : List HostMove → Platform → Option Platform
  | [], p => some p
  | m :: h, p => (p.move m).bind (Platform.follow h)

end Sys2Proof.Machine
end

