-- ==== Sys2Proof/Safety.lean ====
section
/-! DEFINITION. The terms claims use: the invariant of 10_state.md R36, the launch premises of
70_reset_and_hazards.md R163, and a run's input and output (R151, R157). -/

namespace Sys2Proof.Machine

/-! ### The invariant -/

/-- A live block in order: R36 (a) to (f), with the facts about the configuration that LOAD's tests
give (00_scope.md R7 to R9) and the canonical form of the arrays. R36 (g) relates two states. -/
structure State.Live (s : State) : Prop where
  loaded : s.loaded = true
  hasBank : 1 ≤ s.config.prgBanks
  prgSize : s.config.prgRom.size = s.config.prgBanks * 16384
  initSize : s.config.chrInit.size = s.config.chrLength
  prgWf : s.config.prgRom.wf = true
  initWf : s.config.chrInit.wf = true
  /-- R22: "constant for the cartridge's lifetime". -/
  clampEq : s.clamp = (s.config.prgBanks - 1) * 16384
  /-- R36 (a). -/
  ptrAligned : s.bankptr % 16384 = 0
  /-- R36 (b). -/
  ptrLeClamp : s.bankptr ≤ s.clamp
  /-- R36 (c). -/
  bankLe : s.bank ≤ 31
  /-- R36 (d). -/
  chrSize : s.chr.size = s.config.chrLength
  chrWf : s.chr.wf = true
  /-- R36 (e). -/
  romFixed : s.config.chrBanks ≠ 0 → s.chr = s.config.chrInit
  /-- R36 (f). -/
  mirrorVertical : s.mirror = .vertical
  /-- R28. -/
  mirrorOnce : s.mirrorWrites = 1

/-- Once loaded, in order. Before LOAD nothing is asked: every field is unspecified (R35). -/
def State.Inv (s : State) : Prop := s.loaded = true → s.Live

/-! ### Runs (R151, R157) and the named launch premises (R163)

`WellFormed(d)` is `Descriptor.wellFormed` (Machine/Ops.lean), the four tests of R150. The premises on
the platform are said of its moves (Machine/Platform.lean, log 28). -/

/-- `k` steps of the machine, by the host's own definition of a run. -/
def run (k : Nat) (s : State) : Result := core.run k s

/-- `LoadedFirst`: the run is `LOAD d` and then the transactions `ts`; "nothing precedes LOAD and no
second LOAD occurs inside the run". -/
def LoadedFirst (d : Descriptor) (ts : List TWord) (es : List Event) : Prop :=
  es = .load d :: ts.map .txn

/-- `NoRefusal`: no transaction is a CPU read below 0x8000. -/
def NoRefusal (ts : List TWord) : Prop := ∀ t ∈ ts, ∀ a : Addr, decode t ≠ .rdprgLow a

/-- `Serial`: the transactions reach the block one at a time (R158), and in order, the list the run
takes being `handedOver h`. -/
def Serial (h : List HostMove) : Prop := oneAtATime false h = true

/-- `BuffersPrivate`: since LOAD nothing but the block has written PRG_ROM or CHR. -/
def BuffersPrivate (h : List HostMove) : Prop :=
  ∀ m ∈ sinceLoad h, ∀ i v, m ≠ .writePrgRom i v ∧ m ≠ .writeChr i v

/-- `NoReload`: no LOAD among the events between the two points a claim speaks of. -/
def NoReload (es : List Event) : Prop := ∀ d : Descriptor, Event.load d ∉ es

/-- `ValueAsSeen`: the value of each CPU write is the value the block's data inputs carry. -/
def ValueAsSeen (h : List HostMove) : Prop :=
  ∀ t inputs, .call t inputs ∈ h → sideField t = .cpu → rwField t = .write → inputs = dataField t

/-- `SoleMirrorWriter`: nothing else has written the mirroring register since LOAD. -/
def SoleMirrorWriter (h : List HostMove) : Prop := ∀ m ∈ sinceLoad h, ∀ code, m ≠ .setMirroring code

/-- The block before a run's LOAD: nothing about the other fields matters (R35, R152). -/
def State.unloaded (s : State) : Prop := s.loaded = false ∧ s.mirrorWrites = 0

/-- The run's output: the response bytes in order (R157). -/
def State.output (s : State) : List Byte := s.responses.map Response.byte

/-- The responses that went to one side, in order. -/
def State.outputOn (s : State) (side : Side) : List Byte :=
  (s.responses.filter (·.side = side)).map Response.byte

/-- The value of the last bank select in a list of transactions (40_prg_operations.md R98). -/
def lastSelect : List TWord → Option Byte
  | [] => none
  | t :: ts =>
    match lastSelect ts with
    | some v => some v
    | none =>
      match decode t with
      | .wrprgSel _ v => some v
      | _ => none

/-- The transactions of one side, in order (20_memory.md R56). -/
def onSide (side : Side) (ts : List TWord) : List TWord := ts.filter (sideField · = side)

end Sys2Proof.Machine
end

