-- ==== Sys2Proof/Certificates/Slice0/Obligations.lean ====
section
/-! DEFINITION. The statements for the provers. Each docstring names the rule of spec/ it formalises.
`s.Live` is the invariant of 10_state.md R36; that every step keeps it is `StepKeepsInvariant`. -/

open Sys2Proof Sys2Proof.Machine

/-! ### Encoding -/

/-- R70, R71: decoding the canonical word of a well-formed instruction gives it back, for every
operand. -/
def Obligations.DecodeOfEncodeIsIdentity : Prop :=
  ∀ i : Instr, i.wellFormed = true → decode (encode i) = i

/-- R72: the DATA field of a read is ignored; the canonical encoding of a read has DATA 0x00; a decoder
accepts any value. Every other bit of a word survives decoding and encoding. -/
def Obligations.ReadDataIsIgnoredAndCanonicallyZero : Prop :=
  (∀ (side : Side) (a : Addr) (d d' : Byte),
    decode (pack side .read a d) = decode (pack side .read a d')) ∧
  (∀ t : TWord, encode (decode t) =
    pack (sideField t) (rwField t) (addrField t) (if rwField t = .read then 0 else dataField t))

/-- R71: every word selects exactly one row, and decodes to that row's class, with the word's own
side, access kind and address, the address meeting the class's condition. -/
def Obligations.EveryWordSelectsExactlyOneRow : Prop :=
  ∀ t : TWord,
    (opcodeRows.filter (·.selects t)).map Row.mnemonic = [(decode t).mnemonic] ∧
    (decode t).wellFormed = true ∧ (decode t).side = sideField t ∧ (decode t).rw = rwField t ∧
    (decode t).addr = addrField t

/-- R81: the worked encodings. -/
def Obligations.WorkedEncodingsDecode : Prop :=
  decode 0x0800000 = .rdprgSw 0x8000 ∧ decode 0x0BFFF00 = .rdprgSw 0xBFFF ∧
  decode 0x0C00000 = .rdprgFix 0xC000 ∧ decode 0x0FFFC00 = .rdprgFix 0xFFFC ∧
  decode 0x07FFF00 = .rdprgLow 0x7FFF ∧ decode 0x1800007 = .wrprgSel 0x8000 0x07 ∧
  decode 0x1FFFF5F = .wrprgSel 0xFFFF 0x5F ∧ decode 0x17FFF03 = .wrprgNop 0x7FFF 0x03 ∧
  decode 0x2000000 = .rdchrWin 0x0000 ∧ decode 0x21FFF00 = .rdchrWin 0x1FFF ∧
  decode 0x2200000 = .rdchrOut 0x2000 ∧ decode 0x2400000 = .rdchrOut 0x4000 ∧
  decode 0x2800000 = .rdchrOut 0x8000 ∧ decode 0x30010AB = .wrchrWin 0x0010 0xAB ∧
  decode 0x3200055 = .wrchrOut 0x2000 0x55

/-- R15, R33, R54: a step whose next event is a word runs exactly the instruction the word decodes to,
on the state without that event; nothing else happens around it. -/
def Obligations.StepRunsTheDecodedTransaction : Prop :=
  ∀ (s : State) (t : TWord) (rest : List Event), s.pending = .txn t :: rest →
    (decode t).wellFormed = true ∧ step s = exec (decode t) { s with pending := rest }

/-- R70, and the model's byte layout (log 21) and placing of a transaction (log 3): a number below 2^26
is the word it numbers, and once placed it is what the next step runs, on the state it was placed in. -/
def Obligations.PlacedTableWordRunsNext : Prop :=
  ∀ (s : State) (w : Nat), w < 2 ^ 26 →
    decodeTableWord 32 w = some (decode (BitVec.ofNat 26 w)) ∧
    step (s.withFetchWord 32 w) = exec (decode (BitVec.ofNat 26 w)) s

/-! ### CPU side -/

/-- R90: a read in the switchable window answers the byte of the selected bank and changes nothing. -/
def Obligations.SwitchableReadAnswersSelectedBank : Prop :=
  ∀ (s : State) (a : Addr) (d : Byte), s.Live → 0x8000 ≤ a.toNat → a.toNat ≤ 0xBFFF →
    pack .cpu .read a d &&& 0x3C00000 = 0x0800000 ∧ decode (pack .cpu .read a d) = .rdprgSw a ∧
    ∃ b, s.config.prgRom.read (s.bankptr + (a.toNat - 0x8000)) = some b ∧
      exec (.rdprgSw a) s = .next { s with responses := s.responses ++ [⟨.cpu, b⟩] }

/-- R91: a read in the fixed window answers the byte of the last bank, whatever BANKPTR holds. -/
def Obligations.FixedReadAnswersLastBank : Prop :=
  ∀ (s : State) (a : Addr) (d : Byte), s.Live → 0xC000 ≤ a.toNat →
    pack .cpu .read a d &&& 0x3C00000 = 0x0C00000 ∧ decode (pack .cpu .read a d) = .rdprgFix a ∧
    ∃ b, s.config.prgRom.read ((s.config.prgBanks - 1) * 16384 + (a.toNat - 0xC000)) = some b ∧
      exec (.rdprgFix a) s = .next { s with responses := s.responses ++ [⟨.cpu, b⟩] }

/-- R92: a CPU read below 0x8000 is refused. -/
def Obligations.ReadBelowWindowIsRefused : Prop :=
  ∀ (s : State) (a : Addr) (d : Byte), s.loaded = true → a.toNat ≤ 0x7FFF →
    pack .cpu .read a d &&& 0x3800000 = 0x0000000 ∧ decode (pack .cpu .read a d) = .rdprgLow a ∧
    exec (.rdprgLow a) s = .refused .readBelowWindow

/-- R93: a bank select sets BANKPTR to the low five bits of the value, modulo the number of banks,
times 16384, and changes nothing else. -/
def Obligations.BankSelectSetsPointer : Prop :=
  ∀ (s : State) (a : Addr) (v : Byte), s.Live → 0x8000 ≤ a.toNat →
    pack .cpu .write a v &&& 0x3800000 = 0x1800000 ∧ decode (pack .cpu .write a v) = .wrprgSel a v ∧
    exec (.wrprgSel a v) s =
      .next { s with bankptr := (v &&& 0x1F).toNat % s.config.prgBanks * 16384 }

/-- R94: a CPU write below 0x8000 changes nothing. -/
def Obligations.WriteBelowWindowChangesNothing : Prop :=
  ∀ (s : State) (a : Addr) (v : Byte), s.loaded = true → a.toNat ≤ 0x7FFF →
    pack .cpu .write a v &&& 0x3800000 = 0x1000000 ∧ decode (pack .cpu .write a v) = .wrprgNop a v ∧
    exec (.wrprgNop a v) s = .next s

/-- R95: the bits above bit 4 of a written value have no effect, and no CPU write moves MIRROR. -/
def Obligations.HighValueBitsAreIgnored : Prop :=
  ∀ (s : State) (a : Addr) (v : Byte), s.Live →
    ∃ t, exec (decode (pack .cpu .write a v)) s = .next t ∧ t.mirror = .vertical ∧
      ∀ v' : Byte, v' &&& 0x1F = v &&& 0x1F → exec (decode (pack .cpu .write a v')) s = .next t

/-- R29, R78: every address from 0x8000 to 0xFFFF selects alike, the fixed window included. -/
def Obligations.EverySelectAddressSelectsAlike : Prop :=
  ∀ (s : State) (a a' : Addr) (v : Byte), s.Live → 0x8000 ≤ a.toNat → 0x8000 ≤ a'.toNat →
    ∃ t, exec (.wrprgSel a v) s = .next t ∧ exec (.wrprgSel a' v) s = .next t

/-- R75: REQ is the low five bits; SEL is a true modulo, a mask for a power of two up to 2^5, the
identity from 32 banks on; the pointer is SEL shifted left by 14, never over CLAMP. -/
def Obligations.BankSelectAssembly : Prop :=
  ∀ (v : Byte) (n : Nat), 1 ≤ n →
    bankReq v = (v.extractLsb' 0 5).toNat ∧ bankSel v n = bankReq v % n ∧
    bankSel v n ≤ min 31 (n - 1) ∧ newBankptr v n = bankSel v n * 16384 ∧
    newBankptr v n = bankSel v n <<< 14 ∧ newBankptr v n ≤ (n - 1) * 16384 ∧
    (∀ k, k ≤ 5 → n = 2 ^ k → bankSel v n = bankReq v &&& (2 ^ k - 1)) ∧
    (32 ≤ n → bankSel v n = bankReq v)

/-- R48: the offset is the bank number followed by the fourteen low address bits; bit 15 selects the
block and bit 14 the window. -/
def Obligations.BitLevelPrgTranslation : Prop :=
  ∀ (s : State) (a : Addr), s.Live → a.getLsbD 15 = true →
    0x8000 ≤ a.toNat ∧
    prgOff s.bankptr s.clamp a =
      (if a.getLsbD 14 then s.config.prgBanks - 1 else s.bank) * 16384 +
        (a.extractLsb' 0 14).toNat ∧
    (s.config.prgBanks = 1 → prgOff s.bankptr s.clamp a = (a.extractLsb' 0 14).toNat) ∧
    (s.bank = s.config.prgBanks - 1 → prgOff s.bankptr s.clamp a =
      (s.config.prgBanks - 1) * 16384 + (a.extractLsb' 0 14).toNat)

/-- R21: the invariant of the bank index. -/
def Obligations.BankIndexStaysLegal : Prop :=
  ∀ s : State, s.Live →
    s.bankptr % 16384 = 0 ∧ s.bank ≤ min 31 (s.config.prgBanks - 1) ∧ s.bankptr ≤ 0x7C000 ∧
    s.bankptr = s.bank * 16384

/-- R98: with the last bank selected, the two windows answer the same byte at the same offset. -/
def Obligations.WindowsAgreeOnTheLastBank : Prop :=
  ∀ (s : State) (k : Nat), s.Live → s.bank = s.config.prgBanks - 1 → k ≤ 16383 →
    ∃ b, exec (.rdprgSw (BitVec.ofNat 16 (0x8000 + k))) s =
        .next { s with responses := s.responses ++ [⟨.cpu, b⟩] } ∧
      exec (.rdprgFix (BitVec.ofNat 16 (0xC000 + k))) s =
        .next { s with responses := s.responses ++ [⟨.cpu, b⟩] }

/-- R91, R98: however many steps are run, if no LOAD is among the events, the fixed window answers the
same byte after them as before them. -/
def Obligations.FixedWindowSurvivesAnyRun : Prop :=
  ∀ (s s' : State) (k : Nat) (a : Addr), s.Live → NoReload s.pending → run k s = .next s' →
    0xC000 ≤ a.toNat →
    ∃ b, exec (.rdprgFix a) s = .next { s with responses := s.responses ++ [⟨.cpu, b⟩] } ∧
      exec (.rdprgFix a) s' = .next { s' with responses := s'.responses ++ [⟨.cpu, b⟩] }

/-! ### PPU side -/

/-- R110: a read in the CHR window. RAM mode: the byte inside the capacity, else 0. ROM mode: the byte
at the wrapped address, which is the address. -/
def Obligations.ChrWindowReadAnswersArrayByte : Prop :=
  ∀ (s : State) (a : Addr) (d : Byte), s.Live → a.toNat ≤ 0x1FFF →
    pack .ppu .read a d &&& 0x3E00000 = 0x2000000 ∧ decode (pack .ppu .read a d) = .rdchrWin a ∧
    ∃ b, exec (.rdchrWin a) s = .next { s with responses := s.responses ++ [⟨.ppu, b⟩] } ∧
      (s.config.chrBanks = 0 → a.toNat < s.config.chrRamSize → s.chr.read a.toNat = some b) ∧
      (s.config.chrBanks = 0 → s.config.chrRamSize ≤ a.toNat → b = 0) ∧
      (s.config.chrBanks ≠ 0 → s.chr.read (a.toNat % (s.config.chrBanks * 8192)) = some b ∧
        s.chr.read a.toNat = some b)

/-- R111: a PPU read outside the CHR window answers 0 in both modes and changes nothing. -/
def Obligations.ChrReadOutsideWindowAnswersZero : Prop :=
  ∀ (s : State) (a : Addr) (d : Byte), s.loaded = true → 0x2000 ≤ a.toNat →
    (pack .ppu .read a d &&& 0x3E00000 = 0x2200000 ∨
      pack .ppu .read a d &&& 0x3C00000 = 0x2400000 ∨
      pack .ppu .read a d &&& 0x3800000 = 0x2800000) ∧
    decode (pack .ppu .read a d) = .rdchrOut a ∧
    exec (.rdchrOut a) s = .next { s with responses := s.responses ++ [⟨.ppu, 0⟩] }

/-- R113: a write in the CHR window stores all eight bits in RAM mode inside the capacity, leaving every
other byte and every other field; in every other case it changes nothing. -/
def Obligations.ChrWindowWriteStoresInRamOnly : Prop :=
  ∀ (s : State) (a : Addr) (v : Byte), s.Live → a.toNat ≤ 0x1FFF →
    pack .ppu .write a v &&& 0x3E00000 = 0x3000000 ∧ decode (pack .ppu .write a v) = .wrchrWin a v ∧
    (s.config.chrBanks = 0 ∧ a.toNat < s.config.chrRamSize →
      ∃ m : Memory, exec (.wrchrWin a v) s = .next { s with chr := m } ∧ m.size = s.chr.size ∧
        m.read a.toNat = some v ∧ ∀ i, i ≠ a.toNat → m.read i = s.chr.read i) ∧
    (¬(s.config.chrBanks = 0 ∧ a.toNat < s.config.chrRamSize) → exec (.wrchrWin a v) s = .next s)

/-- R114: a PPU write outside the CHR window changes nothing. -/
def Obligations.ChrWriteOutsideWindowChangesNothing : Prop :=
  ∀ (s : State) (a : Addr) (v : Byte), s.loaded = true → 0x2000 ≤ a.toNat →
    (pack .ppu .write a v &&& 0x3E00000 = 0x3200000 ∨
      pack .ppu .write a v &&& 0x3C00000 = 0x3400000 ∨
      pack .ppu .write a v &&& 0x3800000 = 0x3800000) ∧
    decode (pack .ppu .write a v) = .wrchrOut a v ∧ exec (.wrchrOut a v) s = .next s

/-- R50: the enables, and what a failed test does: a read answers 0 and a write is dropped. -/
def Obligations.ChrEnablesGuardEveryAccess : Prop :=
  ∀ (s : State) (a : Addr) (d : Byte), s.Live →
    (chrEn s.config a .read = true ↔
      a.toNat < 0x2000 ∧ (0 < s.config.chrBanks ∨ a.toNat < s.config.chrRamSize)) ∧
    (chrEn s.config a .write = true ↔
      a.toNat < 0x2000 ∧ s.config.chrBanks = 0 ∧ a.toNat < s.config.chrRamSize) ∧
    (∀ rw, chrWe s.config a rw = true ↔ rw = .write ∧ chrEn s.config a .write = true) ∧
    (chrEn s.config a .read = false → exec (decode (pack .ppu .read a d)) s =
      .next { s with responses := s.responses ++ [⟨.ppu, 0⟩] }) ∧
    (chrEn s.config a .write = false → exec (decode (pack .ppu .write a d)) s = .next s)

/-- R112: the laws of RDCHR, over the whole address range, and the wrap property of the offset
function, with what becomes of the wrapped address on a 16-bit bus. -/
def Obligations.ChrReadLaws : Prop :=
  ∀ (s : State) (a : Addr), s.Live →
    (∃ b, exec (decode (pack .ppu .read a 0)) s =
        .next { s with responses := s.responses ++ [⟨.ppu, b⟩] } ∧
      (s.config.chrBanks ≠ 0 → a.toNat < 0x2000 → s.config.chrInit.read a.toNat = some b) ∧
      (s.config.chrBanks = 0 → a.toNat < min 0x2000 s.config.chrRamSize →
        s.chr.read a.toNat = some b) ∧
      (s.config.chrBanks ≠ 0 → 0x2000 ≤ a.toNat → b = 0) ∧
      (s.config.chrBanks = 0 → min 0x2000 s.config.chrRamSize ≤ a.toNat → b = 0)) ∧
    (s.config.chrBanks ≠ 0 → ∀ n,
      chrOff s.config (n + s.config.chrBanks * 8192) = chrOff s.config n) ∧
    (s.config.chrBanks ≠ 0 → a.toNat < 0x2000 →
      (s.config.chrBanks % 8 ≠ 0 →
        0x2000 ≤ (a + BitVec.ofNat 16 (s.config.chrBanks * 8192)).toNat) ∧
      (s.config.chrBanks % 8 = 0 → a + BitVec.ofNat 16 (s.config.chrBanks * 8192) = a))

/-- R115: the laws of WRCHR. ROM is immutable; RAM reads back below the window's end and the capacity,
and no other read changes; elsewhere the write is ignored and the read answers 0; BANKPTR, MIRROR and
the length of CHR never change. -/
def Obligations.ChrWriteLaws : Prop :=
  ∀ (s : State) (a : Addr) (v : Byte), s.Live →
    ∃ t, exec (decode (pack .ppu .write a v)) s = .next t ∧
      t.bankptr = s.bankptr ∧ t.mirror = s.mirror ∧ t.chr.size = s.chr.size ∧
      (s.config.chrBanks ≠ 0 → t.chr = s.config.chrInit ∧ t = s) ∧
      (s.config.chrBanks = 0 → a.toNat < min 0x2000 s.config.chrRamSize →
        exec (decode (pack .ppu .read a 0)) t =
          .next { t with responses := t.responses ++ [⟨.ppu, v⟩] } ∧
        ∀ a' : Addr, a' ≠ a → ∃ b,
          exec (decode (pack .ppu .read a' 0)) s =
            .next { s with responses := s.responses ++ [⟨.ppu, b⟩] } ∧
          exec (decode (pack .ppu .read a' 0)) t =
            .next { t with responses := t.responses ++ [⟨.ppu, b⟩] }) ∧
      (s.config.chrBanks = 0 → min 0x2000 s.config.chrRamSize ≤ a.toNat →
        t = s ∧ exec (decode (pack .ppu .read a 0)) t =
          .next { t with responses := t.responses ++ [⟨.ppu, 0⟩] })

/-- R116: the bytes of CHR at 0x2000 and above are inert: replacing them changes no response, no other
field and no reachable byte, and no instruction changes them. -/
def Obligations.UnreachableChrBytesAreInert : Prop :=
  ∀ (s t : State) (c : Memory) (i : Instr), s.Live → c.wf = true → c.size = s.chr.size →
    (∀ j, j < 0x2000 → c.read j = s.chr.read j) → exec i s = .next t →
    ∃ m : Memory, exec i { s with chr := c } = .next { t with chr := m } ∧
      (∀ j, j < 0x2000 → m.read j = t.chr.read j) ∧
      (∀ j, 0x2000 ≤ j → m.read j = c.read j ∧ t.chr.read j = s.chr.read j)

/-! ### LOAD and reset -/

/-- R150: LOAD's four tests and its effect. The premise that the descriptor's lists are forms of byte
arrays is the model's (log 9); on a live block the same effect starts another run (log 8). -/
def Obligations.LoadChecksAndConstructs : Prop :=
  ∀ (s : State) (d : Descriptor) (rest : List Event), d.canonical = true →
    s.pending = .load d :: rest →
    (d.prgBanks ≠ 0 ∧ d.prgRom.size = d.prgBanks * 16384 ∧
      (0 < d.chrBanks → d.chrInit.size = d.chrBanks * 8192) ∧
      (d.chrBanks = 0 → d.chrInit.size = d.chrRamSize) →
      step s = .next
        { loaded := true, config := d, clamp := (d.prgBanks - 1) * 16384, bankptr := 0,
          chr := d.chrInit, mirror := .vertical, mirrorWrites := 1, responses := [],
          pending := rest }) ∧
    (d.prgBanks = 0 ∨ d.prgRom.size ≠ d.prgBanks * 16384 ∨
      (0 < d.chrBanks ∧ d.chrInit.size ≠ d.chrBanks * 8192) ∨
      (d.chrBanks = 0 ∧ d.chrInit.size ≠ d.chrRamSize) →
      step s = .refused .malformedDescriptor)

/-- R152: a transaction before LOAD is refused, whatever it is. -/
def Obligations.TransactionBeforeLoadIsRefused : Prop :=
  ∀ s : State, s.loaded = false →
    (∀ i : Instr, exec i s = .refused .beforeLoad) ∧
    (∀ (t : TWord) (rest : List Event), s.pending = .txn t :: rest →
      step s = .refused .beforeLoad)

/-- R151, R163: the state after LOAD depends on the descriptor and the events that follow, on nothing
the machine held before (the model's reading for a live block, log 8). -/
def Obligations.LoadForgetsEarlierState : Prop :=
  ∀ (s s' : State) (d : Descriptor) (rest : List Event), s.pending = .load d :: rest →
    s'.pending = .load d :: rest → step s = step s'

/-- R27, R28, R140: LOAD drives VERTICAL once; no transaction drives anything. -/
def Obligations.MirrorIsDrivenByLoadOnly : Prop :=
  (∀ (d : Descriptor) (s t : State), load d s = .next t →
    t.mirror = .vertical ∧ t.mirrorWrites = 1) ∧
  (∀ (i : Instr) (s t : State), exec i s = .next t →
    t.mirror = s.mirror ∧ t.mirrorWrites = s.mirrorWrites)

/-- R35, R36, for the descriptor the model chose (log 1): the state after reset is in order, and is what
LOAD of that descriptor constructs. -/
def Obligations.ResetIsLive : Prop :=
  State.reset.Live ∧ ∀ s : State, s.pending = [.load Descriptor.least] → step s = .next State.reset

/-! ### The whole machine -/

/-- R36: after LOAD, and after every later step, the invariant holds; a transaction leaves the
configuration and the length of CHR. Before LOAD nothing is asked of the state. -/
def Obligations.StepKeepsInvariant : Prop :=
  ∀ s s' : State, s.Inv → step s = .next s' →
    s'.Inv ∧
    (∀ d rest, s.pending = .load d :: rest → s'.Live) ∧
    (∀ t rest, s.pending = .txn t :: rest →
      s'.Live ∧ s'.config = s.config ∧ s'.clamp = s.clamp ∧ s'.chr.size = s.chr.size)

/-- R52: every offset the rules compute is inside its array. -/
def Obligations.OffsetsStayInsideArrays : Prop :=
  ∀ (s : State) (a : Addr), s.Live →
    (0x8000 ≤ a.toNat → prgOff s.bankptr s.clamp a ≤ s.clamp + 16383 ∧
      s.clamp + 16383 = s.config.prgBanks * 16384 - 1 ∧
      prgOff s.bankptr s.clamp a < s.config.prgRom.size) ∧
    (s.config.chrBanks ≠ 0 → ∀ n, chrOff s.config n < s.config.chrBanks * 8192) ∧
    (∀ rw, chrEn s.config a rw = true → chrOff s.config a.toNat < s.chr.size ∧
      (s.config.chrBanks = 0 → chrOff s.config a.toNat = a.toNat ∧
        a.toNat < s.config.chrRamSize))

/-- R130: in order, the machine never faults; every transaction but a CPU read below 0x8000 answers a
next state, for every address, value, state and configuration. -/
def Obligations.EveryTransactionHasADefinedResult : Prop :=
  ∀ s : State, s.Live →
    (∀ f, step s ≠ .fault f) ∧
    (∀ i : Instr, i.wellFormed = true → (∀ a, i ≠ .rdprgLow a) → ∃ t, exec i s = .next t)

/-- R51, and the model's refusal: the output multiplexer gives the byte of every read it has one for. On
a CPU read below 0x8000 R51 has no line; that DOUT is none there and the read is refused is R92, R134
and 92_eei_decisions.md D4 (log 5, log 24). -/
def Obligations.OutputMultiplexerGivesEveryResponse : Prop :=
  ∀ (s : State) (side : Side) (a : Addr) (d : Byte), s.Live →
    (∀ b, (signals side .read a s).dout = some b →
      exec (decode (pack side .read a d)) s =
        .next { s with responses := s.responses ++ [⟨side, b⟩] }) ∧
    ((signals side .read a s).dout = none → side = .cpu ∧ a.toNat < 0x8000 ∧
      exec (decode (pack side .read a d)) s = .refused .readBelowWindow) ∧
    (signals side .write a s).dout = none ∧
    (∃ t, exec (decode (pack side .write a d)) s = .next t ∧ t.responses = s.responses)

/-- R133, and the model's refusals: the decode-class rules are the four operations with their tests in
the stated order. That a read R133 calls outside the contract is refused is R134 and
92_eei_decisions.md D4 (log 5); that every call before LOAD is refused is R152 (log 6). -/
def Obligations.ClassRulesAgreeWithTestOrder : Prop :=
  ∀ (t : TWord) (s : State),
    exec (decode t) s = busCall (sideField t) (rwField t) (addrField t) (dataField t) s

/-- R98, R115: what no instruction changes, and which side can change what. Every byte of CHR is as
before but the one a WRCHR.WIN addresses. -/
def Obligations.FrameOfEveryTransaction : Prop :=
  ∀ (i : Instr) (s t : State), exec i s = .next t →
    t.loaded = s.loaded ∧ t.config = s.config ∧ t.clamp = s.clamp ∧ t.mirror = s.mirror ∧
    t.mirrorWrites = s.mirrorWrites ∧ t.pending = s.pending ∧ t.chr.size = s.chr.size ∧
    ((∀ a v, i ≠ .wrprgSel a v) → t.bankptr = s.bankptr) ∧
    ((∀ a v, i ≠ .wrchrWin a v) → t.chr = s.chr) ∧
    (s.chr.wf = true → ∀ j, (∀ a v, i = .wrchrWin a v → j ≠ a.toNat) →
      t.chr.read j = s.chr.read j) ∧
    (i.rw = .write → t.responses = s.responses) ∧
    (i.rw = .read → ∃ b, t.responses = s.responses ++ [⟨i.side, b⟩])

/-- R43: a read only answers, and repeating it answers the same byte. -/
def Obligations.ReadsArePure : Prop :=
  ∀ (i : Instr) (s t : State), i.rw = .read → exec i s = .next t →
    ∃ b, t = { s with responses := s.responses ++ [⟨i.side, b⟩] } ∧
      exec i t = .next { t with responses := t.responses ++ [⟨i.side, b⟩] }

/-- R43, R98: a write done twice leaves the state of the first. -/
def Obligations.WritesAreIdempotent : Prop :=
  ∀ (i : Instr) (s : State), s.Live → i.rw = .write → i.wellFormed = true →
    ∃ t, exec i s = .next t ∧ exec i t = .next t

/-- R55: a write is complete before the next transaction: a read in the switchable window straight
after a bank select reads the new bank, and a CHR read straight after a store returns the value, every
other byte of CHR and its length being as before. Nothing else changes. -/
def Obligations.WriteIsCompleteBeforeTheNextTransaction : Prop :=
  ∀ (s : State) (v : Byte) (rest : List Event), s.Live →
    (∀ a a' : Addr, 0x8000 ≤ a.toNat → 0x8000 ≤ a'.toNat → a'.toNat ≤ 0xBFFF →
      s.pending = .txn (pack .cpu .write a v) :: .txn (pack .cpu .read a' 0) :: rest →
      ∃ b, s.config.prgRom.read ((v &&& 0x1F).toNat % s.config.prgBanks * 16384 +
          (a'.toNat - 0x8000)) = some b ∧
        run 2 s = .next
          { s with
            bankptr := (v &&& 0x1F).toNat % s.config.prgBanks * 16384
            responses := s.responses ++ [⟨.cpu, b⟩]
            pending := rest }) ∧
    (∀ a : Addr, s.config.chrBanks = 0 → a.toNat < min 0x2000 s.config.chrRamSize →
      s.pending = .txn (pack .ppu .write a v) :: .txn (pack .ppu .read a 0) :: rest →
      ∃ m : Memory, m.size = s.chr.size ∧ m.read a.toNat = some v ∧
        (∀ i, i ≠ a.toNat → m.read i = s.chr.read i) ∧
        run 2 s = .next
          { s with chr := m, responses := s.responses ++ [⟨.ppu, v⟩], pending := rest })

/-- R56: a CPU-side and a PPU-side transaction commute: the same state and the same two responses
either way round (in `responses` they stand in the order they were answered). -/
def Obligations.SidesCommute : Prop :=
  ∀ (p q : Instr) (s s₁ s₂ : State), p.side = .cpu → q.side = .ppu →
    exec p s = .next s₁ → exec q s₁ = .next s₂ →
    ∃ t₁ t₂, exec q s = .next t₁ ∧ exec p t₁ = .next t₂ ∧
      { t₂ with responses := [] } = { s₂ with responses := [] } ∧
      ∀ side, t₂.outputOn side = s₂.outputOn side

/-- R56, D3: every interleaving of a CPU-side and a PPU-side stream that keeps each stream's own order
ends in the same state and gives each side the same responses. -/
def Obligations.EveryInterleavingGivesTheSameResult : Prop :=
  ∀ (s : State) (us vs : List TWord), s.Live → NoRefusal us →
    onSide .cpu us = onSide .cpu vs → onSide .ppu us = onSide .ppu vs →
    ∃ t₁ t₂, run us.length { s with pending := us.map .txn } = .next t₁ ∧
      run vs.length { s with pending := vs.map .txn } = .next t₂ ∧
      { t₁ with responses := [] } = { t₂ with responses := [] } ∧
      ∀ side, t₁.outputOn side = t₂.outputOn side

/-- R98, R130, R151, R157: a run of LOAD and any transactions without a CPU read below 0x8000 ends, in
order, with the bank of the last select (bank 0 if there was none), one response for every read. -/
def Obligations.RunEndsWithTheLastSelectedBank : Prop :=
  ∀ (s : State) (d : Descriptor) (ts : List TWord), d.canonical = true → d.wellFormed = true →
    NoRefusal ts → LoadedFirst d ts s.pending →
    ∃ t, run (ts.length + 1) s = .next t ∧ t.Live ∧ t.config = d ∧ t.pending = [] ∧
      t.bankptr =
        (match lastSelect ts with
         | some v => (v &&& 0x1F).toNat % d.prgBanks * 16384
         | none => 0) ∧
      t.responses.map Response.side = (ts.filter (rwField · = .read)).map sideField

/-- R27, R28, R36, R163: in a run of LOAD and then transactions, at every point after LOAD the block
is in order, drives VERTICAL, and has called `set_mirroring` once. -/
def Obligations.MirrorIsVerticalThroughoutEveryRun : Prop :=
  ∀ (s t : State) (d : Descriptor) (ts : List TWord) (k : Nat), s.unloaded →
    LoadedFirst d ts s.pending → run (k + 1) s = .next t →
    s.mirrorWrites = 0 ∧ t.Live ∧ t.mirror = .vertical ∧ t.mirrorWrites = 1

/-- The model's own convention (log 4): with no event pending nothing happens. -/
def Obligations.NoEventChangesNothing : Prop :=
  ∀ s : State, s.pending = [] → step s = .next s

/-! ### The launch premises of R163 on the platform's moves (log 28) -/

/-- R163, R134: `NoRefusal` is exactly that no refusal happens at any step of the transactions' run. -/
def Obligations.NoRefusalIsThatNoStepRefuses : Prop :=
  ∀ (s : State) (ts : List TWord), s.Live →
    (NoRefusal ts ↔ ∃ t, run ts.length { s with pending := ts.map .txn } = .next t) ∧
    (¬NoRefusal ts →
      run ts.length { s with pending := ts.map .txn } = .refused .readBelowWindow)

/-- R151, R155, R158, R163: when the platform's moves meet the premises, the block ends in the state the
machine's run over the handed-over list ends in, which a claim about runs then speaks of. -/
def Obligations.MovesUnderThePremisesAreARun : Prop :=
  ∀ (p : Platform) (h : List HostMove) (d : Descriptor) (ts : List TWord), p.busy = false →
    d.canonical = true → d.wellFormed = true → LoadedFirst d ts (handedOver h) → NoRefusal ts →
    Serial h → BuffersPrivate h →
    ∃ q, p.follow h = some q ∧ q.busy = false ∧
      run (ts.length + 1) (p.block.setPending (handedOver h)) = .next q.block

/-- R163, D12: if the block's data inputs carried what the CPU wrote, the transactions of the run are
those issued, and the bank is the one the last select the CPU issued asks for. -/
def Obligations.ValueAsSeenGivesTheIssuedBank : Prop :=
  ∀ (p q : Platform) (h : List HostMove) (d : Descriptor) (ts : List TWord),
    LoadedFirst d ts (handedOver h) → ValueAsSeen h → p.follow h = some q →
    ts = issued h ∧
    q.block.bankptr =
      (match lastSelect (issued h) with
       | some v => (v &&& 0x1F).toNat % d.prgBanks * 16384
       | none => 0)

/-- R163, D17, R140: if nothing else has written the mirroring register since LOAD, it holds
MIRROR_CODE_VERTICAL, whatever number that is. -/
def Obligations.SoleMirrorWriterLeavesVertical : Prop :=
  ∀ (p q : Platform) (h : List HostMove) (d : Descriptor) (ts : List TWord),
    LoadedFirst d ts (handedOver h) → SoleMirrorWriter h → p.follow h = some q →
    q.block.mirror = .vertical ∧ q.register = some Config.mirrorCodeVertical
end

