-- ==== Sys2Proof/Laws/Decode.lean ====
section
/-! SUPPORT. The fields of a packed word, and the word its fields make. -/

namespace Sys2Proof

@[simp] theorem sideField_pack (side : Side) (rw : Access) (a : Addr) (d : Byte) :
    sideField (pack side rw a d) = side := by
  have h : (pack side rw a d).getLsbD 25 = side.bit.getLsbD 0 := by
    simp only [pack, BitVec.getLsbD_append]; rfl
  rw [sideField, h]
  cases side <;> rfl

@[simp] theorem rwField_pack (side : Side) (rw : Access) (a : Addr) (d : Byte) :
    rwField (pack side rw a d) = rw := by
  have h : (pack side rw a d).getLsbD 24 = rw.bit.getLsbD 0 := by
    simp only [pack, BitVec.getLsbD_append]; rfl
  rw [rwField, h]
  cases rw <;> rfl

@[simp] theorem addrField_pack (side : Side) (rw : Access) (a : Addr) (d : Byte) :
    addrField (pack side rw a d) = a := by
  apply BitVec.eq_of_getLsbD_eq
  intro i hi
  simp only [addrField, pack, BitVec.getLsbD_extractLsb', BitVec.getLsbD_append]
  simp [hi]

@[simp] theorem dataField_pack (side : Side) (rw : Access) (a : Addr) (d : Byte) :
    dataField (pack side rw a d) = d := by
  apply BitVec.eq_of_getLsbD_eq
  intro i hi
  simp only [dataField, pack, BitVec.getLsbD_extractLsb', BitVec.getLsbD_append]
  simp [hi]

/-- The decoder sees a packed word's fields and nothing else. -/
theorem decode_pack (side : Side) (rw : Access) (a : Addr) (d : Byte) :
    decode (pack side rw a d) = classify side rw a d := by
  simp [decode]

/-- A word is its four fields (30_encoding.md R70). -/
theorem pack_fields (t : TWord) :
    pack (sideField t) (rwField t) (addrField t) (dataField t) = t := by
  apply BitVec.eq_of_getLsbD_eq
  intro i hi
  have hs : (sideField t).bit = BitVec.ofBool (t.getLsbD 25) := by
    unfold sideField; cases t.getLsbD 25 <;> rfl
  have hr : (rwField t).bit = BitVec.ofBool (t.getLsbD 24) := by
    unfold rwField; cases t.getLsbD 24 <;> rfl
  simp only [pack, hs, hr, addrField, dataField, BitVec.getLsbD_append,
    BitVec.getLsbD_extractLsb', BitVec.getLsbD_ofBool]
  rcases (by omega : i < 8 ∨ (8 ≤ i ∧ i < 24) ∨ i = 24 ∨ i = 25) with h | ⟨h1, h2⟩ | rfl | rfl
  · simp [h]
  · have : 8 + (i - 8) = i := by omega
    simp [this, show ¬ i < 8 by omega, show i - 8 < 16 by omega]
  · simp
  · simp

/-- The classes a transaction can have, each with its condition on the address (R71). -/
theorem classify_wellFormed (side : Side) (rw : Access) (a : Addr) (d : Byte) :
    (classify side rw a d).wellFormed = true := by
  cases side <;> cases rw <;> simp only [classify] <;> (repeat' split) <;>
    simp_all [Instr.wellFormed]

theorem classify_side (side : Side) (rw : Access) (a : Addr) (d : Byte) :
    (classify side rw a d).side = side := by
  cases side <;> cases rw <;> simp only [classify] <;> (repeat' split) <;> rfl

theorem classify_rw (side : Side) (rw : Access) (a : Addr) (d : Byte) :
    (classify side rw a d).rw = rw := by
  cases side <;> cases rw <;> simp only [classify] <;> (repeat' split) <;> rfl

theorem classify_addr (side : Side) (rw : Access) (a : Addr) (d : Byte) :
    (classify side rw a d).addr = a := by
  cases side <;> cases rw <;> simp only [classify] <;> (repeat' split) <;> rfl

/-! ### Fields and row tests as arithmetic on the word's number -/

theorem addrField_toNat (t : TWord) : (addrField t).toNat = t.toNat / 2 ^ 8 % 2 ^ 16 := by
  simp [addrField, BitVec.extractLsb'_toNat, Nat.shiftRight_eq_div_pow]

theorem sideField_eq (t : TWord) :
    sideField t = if t.toNat / 2 ^ 25 = 1 then .ppu else .cpu := by
  have h := t.isLt
  rw [sideField, BitVec.getLsbD, Nat.testBit_eq_decide_div_mod_eq,
    Nat.mod_eq_of_lt (by omega : t.toNat / 2 ^ 25 < 2)]
  simp

theorem rwField_eq (t : TWord) :
    rwField t = if t.toNat / 2 ^ 24 % 2 = 1 then .write else .read := by
  rw [rwField, BitVec.getLsbD, Nat.testBit_eq_decide_div_mod_eq]
  simp

/-- A mask of the bits from `k` up compares the word's number without its low `k` bits. Every row of
`opcodeRows` has such a mask. -/
theorem and_topMask (t m p : TWord) (k : Nat) (hk : k ≤ 26) (hm : m.toNat = 2 ^ 26 - 2 ^ k) :
    t &&& m = p ↔ t.toNat / 2 ^ k * 2 ^ k = p.toNat := by
  have h : t.toNat &&& (2 ^ 26 - 2 ^ k) = t.toNat / 2 ^ k * 2 ^ k := by
    apply Nat.eq_of_testBit_eq
    intro i
    rw [show 2 ^ 26 - 2 ^ k = (2 ^ (26 - k) - 1) * 2 ^ k by
        rw [Nat.sub_mul, ← pow_add, Nat.sub_add_cancel hk, one_mul],
      Nat.testBit_and, Nat.testBit_mul_two_pow, Nat.testBit_mul_two_pow,
      Nat.testBit_two_pow_sub_one, Nat.testBit_div_two_pow]
    by_cases hik : k ≤ i
    · rw [Nat.sub_add_cancel hik]
      by_cases hi : i < 26
      · simp [hik, show i - k < 26 - k by omega]
      · have : t.toNat.testBit i = false :=
          Nat.testBit_lt_two_pow (t.isLt.trans_le (Nat.pow_le_pow_right (by omega) (by omega)))
        simp [this]
    · simp [hik]
  rw [← BitVec.toNat_inj, BitVec.toNat_and, hm, h]

/-- The number of a packed word (30_encoding.md R70). -/
theorem pack_toNat (side : Side) (rw : Access) (a : Addr) (d : Byte) :
    (pack side rw a d).toNat =
      side.bit.toNat * 2 ^ 25 + rw.bit.toNat * 2 ^ 24 + a.toNat * 2 ^ 8 + d.toNat := by
  have ha := a.isLt
  have hd := d.isLt
  have hr := rw.bit.isLt
  simp only [pack, BitVec.toNat_append]
  rw [← Nat.shiftLeft_add_eq_or_of_lt hr, ← Nat.shiftLeft_add_eq_or_of_lt ha,
    ← Nat.shiftLeft_add_eq_or_of_lt hd]
  simp only [Nat.shiftLeft_eq]
  omega

end Sys2Proof
end

