-- ==== Sys2Proof/Laws/Memory.lean ====
section
/-! SUPPORT. The laws of the array operations: a read after a write, what a write leaves alone, that
every operation keeps the canonical form, and that equal arrays are equal data. -/

namespace Sys2Proof.Machine

/-! ### Lists of cells -/

/-- Below its first index a canonical list gives the unlisted byte. -/
theorem cellsGet_below (cs : List Host.Cell) (n lo j : Nat) (h : cellsWf n lo cs = true)
    (hj : j < lo) : cellsGet cs j = Memory.unlisted := by
  induction cs generalizing lo with
  | nil => rfl
  | cons c cs ih =>
    obtain ⟨a, b⟩ := c
    simp only [cellsWf, Bool.and_eq_true, decide_eq_true_eq] at h
    simp only [cellsGet]
    rw [if_neg (by omega)]
    exact ih _ h.2 (by omega)

theorem cellsWf_weaken (cs : List Host.Cell) (n lo k : Nat) (h : cellsWf n lo cs = true)
    (hk : k ≤ lo) : cellsWf n k cs = true := by
  cases cs with
  | nil => rfl
  | cons c cs =>
    simp only [cellsWf, Bool.and_eq_true, decide_eq_true_eq] at h ⊢
    exact ⟨⟨⟨by omega, h.1.1.2⟩, h.1.2⟩, h.2⟩

theorem cellsGet_put_same (cs : List Host.Cell) (i : Nat) (v : Byte) (n lo : Nat)
    (h : cellsWf n lo cs = true) : cellsGet (cellsPut cs i v) i = v := by
  induction cs generalizing lo with
  | nil => by_cases hv : v = Memory.unlisted <;> simp [cellsPut, cellsGet, hv]
  | cons c rest ih =>
    obtain ⟨a, b⟩ := c
    simp only [cellsWf, Bool.and_eq_true, decide_eq_true_eq] at h
    simp only [cellsPut]
    split
    · rename_i hlt
      split
      · rename_i hv
        simp only [cellsGet]
        rw [if_neg (by omega), hv]
        exact cellsGet_below _ _ _ _ h.2 (by omega)
      · simp [cellsGet]
    · split
      · rename_i _ heq
        split
        · rename_i hv
          rw [hv]
          exact cellsGet_below _ _ _ _ h.2 (by omega)
        · simp [cellsGet]
      · rename_i _ hne
        simp only [cellsGet]
        rw [if_neg (fun e => hne e.symm)]
        exact ih _ h.2

theorem cellsGet_put_other (cs : List Host.Cell) (i j : Nat) (v : Byte) (n lo : Nat)
    (h : cellsWf n lo cs = true) (hij : j ≠ i) : cellsGet (cellsPut cs i v) j = cellsGet cs j := by
  induction cs generalizing lo with
  | nil => by_cases hv : v = Memory.unlisted <;> simp [cellsPut, cellsGet, hv, hij.symm]
  | cons c rest ih =>
    obtain ⟨a, b⟩ := c
    simp only [cellsWf, Bool.and_eq_true] at h
    simp only [cellsPut]
    split
    · split
      · rfl
      · simp [cellsGet, hij.symm]
    · split
      · rename_i _ heq
        subst heq
        split <;> simp [cellsGet, hij.symm]
      · simp only [cellsGet, ih _ h.2]

theorem cellsWf_put (cs : List Host.Cell) (i : Nat) (v : Byte) (n lo : Nat)
    (h : cellsWf n lo cs = true) (hi : i < n) (hlo : lo ≤ i) :
    cellsWf n lo (cellsPut cs i v) = true := by
  induction cs generalizing lo with
  | nil => by_cases hv : v = Memory.unlisted <;> simp [cellsPut, cellsWf, hv, hi, hlo]
  | cons c rest ih =>
    obtain ⟨a, b⟩ := c
    have h0 := h
    simp only [cellsWf, Bool.and_eq_true, decide_eq_true_eq] at h
    obtain ⟨⟨⟨h1, h2⟩, h3⟩, h4⟩ := h
    simp only [cellsPut]
    split
    · rename_i hlt
      split
      · exact h0
      · rename_i hv
        simp only [cellsWf, Bool.and_eq_true, decide_eq_true_eq, bne_iff_ne]
        exact ⟨⟨⟨hlo, hi⟩, hv⟩, ⟨⟨hlt, h2⟩, bne_iff_ne.1 h3⟩, h4⟩
    · split
      · rename_i _ heq
        subst heq
        split
        · exact cellsWf_weaken _ _ _ _ h4 (by omega)
        · rename_i hv
          simp [cellsWf, hlo, hi, hv, h4]
      · simp only [cellsWf, Bool.and_eq_true, decide_eq_true_eq]
        exact ⟨⟨⟨h1, h2⟩, h3⟩, ih _ h4 (by omega)⟩

/-- Two canonical lists that give every index the same byte are the same list. -/
theorem cells_ext (cs ds : List Host.Cell) (n lo : Nat) (hc : cellsWf n lo cs = true)
    (hd : cellsWf n lo ds = true) (h : ∀ i, cellsGet cs i = cellsGet ds i) : cs = ds := by
  induction cs generalizing ds lo with
  | nil =>
    cases ds with
    | nil => rfl
    | cons d ds =>
      obtain ⟨x, y⟩ := d
      simp only [cellsWf, Bool.and_eq_true, decide_eq_true_eq, bne_iff_ne] at hd
      exact absurd (by simpa [cellsGet] using (h x).symm) hd.1.2
  | cons c cs ih =>
    obtain ⟨a, b⟩ := c
    cases ds with
    | nil =>
      simp only [cellsWf, Bool.and_eq_true, decide_eq_true_eq, bne_iff_ne] at hc
      exact absurd (by simpa [cellsGet] using h a) hc.1.2
    | cons d ds =>
      obtain ⟨x, y⟩ := d
      simp only [cellsWf, Bool.and_eq_true, decide_eq_true_eq, bne_iff_ne] at hc hd
      obtain ⟨⟨⟨hc1, hc2⟩, hc3⟩, hc4⟩ := hc
      obtain ⟨⟨⟨hd1, hd2⟩, hd3⟩, hd4⟩ := hd
      have hax : a = x := by
        rcases Nat.lt_trichotomy a x with hlt | heq | hgt
        · have := h a
          simp only [cellsGet, if_true] at this
          rw [if_neg (by omega), cellsGet_below _ _ _ _ hd4 (by omega)] at this
          exact absurd this hc3
        · exact heq
        · have := h x
          simp only [cellsGet, if_true] at this
          rw [if_neg (by omega), cellsGet_below _ _ _ _ hc4 (by omega)] at this
          exact absurd this.symm hd3
      subst hax
      have hby : b = y := by simpa [cellsGet] using h a
      subst hby
      congr 1
      refine ih ds (a + 1) hc4 hd4 fun i => ?_
      by_cases hia : a = i
      · subst hia
        rw [cellsGet_below _ _ _ _ hc4 (by omega), cellsGet_below _ _ _ _ hd4 (by omega)]
      · simpa [cellsGet, hia] using h i

/-! ### Arrays -/

@[simp] theorem Memory.read_isSome (m : Memory) (i : Nat) :
    (m.read i).isSome = decide (i < m.size) := by
  by_cases h : i < m.size <;> simp [Memory.read, h]

theorem Memory.read_some {m : Memory} {i : Nat} (h : i < m.size) :
    m.read i = some (cellsGet m.cells i) := if_pos h

theorem Memory.read_none {m : Memory} {i : Nat} (h : m.size ≤ i) : m.read i = none :=
  if_neg (by omega)

/-- Everything a write can do: inside the array it replaces one byte and keeps the length and the
canonical form. -/
theorem Memory.write_spec {m : Memory} {i : Nat} (v : Byte) (hm : m.wf = true) (hi : i < m.size) :
    ∃ m', m.write i v = some m' ∧ m'.size = m.size ∧ m'.wf = true ∧ m'.read i = some v ∧
      ∀ j, j ≠ i → m'.read j = m.read j := by
  refine ⟨{ m with cells := cellsPut m.cells i v }, if_pos hi, rfl, ?_, ?_, fun j hj => ?_⟩
  · exact cellsWf_put _ _ _ _ _ hm hi (Nat.zero_le i)
  · rw [Memory.read_some (by exact hi)]
    exact congrArg some (cellsGet_put_same _ _ _ _ _ hm)
  · simp only [Memory.read]
    rw [cellsGet_put_other _ _ _ _ _ _ hm hj]

theorem Memory.write_size {m m' : Memory} {i : Nat} {v : Byte} (h : m.write i v = some m') :
    i < m.size ∧ m'.size = m.size := by
  simp only [Memory.write] at h
  split at h
  · rename_i hi
    cases h
    exact ⟨hi, rfl⟩
  · cases h

theorem Memory.write_none {m : Memory} {i : Nat} {v : Byte} (h : m.size ≤ i) :
    m.write i v = none := if_neg (by omega)

theorem Memory.write_wf {m m' : Memory} {i : Nat} {v : Byte} (hm : m.wf = true)
    (h : m.write i v = some m') : m'.wf = true := by
  obtain ⟨n, hn, _, hw, _⟩ := Memory.write_spec v hm (Memory.write_size h).1
  rw [h] at hn
  cases hn
  exact hw

theorem Memory.read_write_same {m m' : Memory} {i : Nat} {v : Byte} (hm : m.wf = true)
    (h : m.write i v = some m') : m'.read i = some v := by
  obtain ⟨n, hn, _, _, hr, _⟩ := Memory.write_spec v hm (Memory.write_size h).1
  rw [h] at hn
  cases hn
  exact hr

theorem Memory.read_write_other {m m' : Memory} {i j : Nat} {v : Byte} (hm : m.wf = true)
    (h : m.write i v = some m') (hj : j ≠ i) : m'.read j = m.read j := by
  obtain ⟨n, hn, _, _, _, ho⟩ := Memory.write_spec v hm (Memory.write_size h).1
  rw [h] at hn
  cases hn
  exact ho j hj

/-- Outside its length a canonical list gives the unlisted byte. -/
theorem cellsGet_outside (cs : List Host.Cell) (n lo i : Nat) (h : cellsWf n lo cs = true)
    (hi : n ≤ i) : cellsGet cs i = Memory.unlisted := by
  induction cs generalizing lo with
  | nil => rfl
  | cons c cs ih =>
    obtain ⟨a, b⟩ := c
    simp only [cellsWf, Bool.and_eq_true, decide_eq_true_eq] at h
    simp only [cellsGet]
    rw [if_neg (by omega)]
    exact ih _ h.2

/-- Equal arrays are equal data. -/
theorem Memory.ext_of_read {m n : Memory} (hm : m.wf = true) (hn : n.wf = true)
    (hs : m.size = n.size) (h : ∀ i, m.read i = n.read i) : m = n := by
  obtain ⟨ms, mc⟩ := m
  obtain ⟨ns, nc⟩ := n
  have hs' : ms = ns := hs
  subst hs'
  congr 1
  refine cells_ext mc nc ms 0 hm hn fun i => ?_
  by_cases hi : i < ms
  · have := h i
    rw [Memory.read_some (by exact hi), Memory.read_some (by exact hi)] at this
    exact Option.some.inj this
  · rw [cellsGet_outside mc ms 0 i hm (by omega), cellsGet_outside nc ms 0 i hn (by omega)]

end Sys2Proof.Machine
end

