-- ==== Sys2Proof/Laws/State.lean ====
section
/-! SUPPORT. What each update of the state leaves in each field. -/

namespace Sys2Proof.Machine

variable (s : State)

@[simp] theorem State.respond_loaded (side : Side) (b : Byte) :
    (s.respond side b).loaded = s.loaded := rfl
@[simp] theorem State.respond_config (side : Side) (b : Byte) :
    (s.respond side b).config = s.config := rfl
@[simp] theorem State.respond_clamp (side : Side) (b : Byte) :
    (s.respond side b).clamp = s.clamp := rfl
@[simp] theorem State.respond_bankptr (side : Side) (b : Byte) :
    (s.respond side b).bankptr = s.bankptr := rfl
@[simp] theorem State.respond_chr (side : Side) (b : Byte) :
    (s.respond side b).chr = s.chr := rfl
@[simp] theorem State.respond_mirror (side : Side) (b : Byte) :
    (s.respond side b).mirror = s.mirror := rfl
@[simp] theorem State.respond_mirrorWrites (side : Side) (b : Byte) :
    (s.respond side b).mirrorWrites = s.mirrorWrites := rfl
@[simp] theorem State.respond_responses (side : Side) (b : Byte) :
    (s.respond side b).responses = s.responses ++ [⟨side, b⟩] := rfl
@[simp] theorem State.respond_pending (side : Side) (b : Byte) :
    (s.respond side b).pending = s.pending := rfl

@[simp] theorem State.setBankptr_loaded (v : Nat) :
    (s.setBankptr v).loaded = s.loaded := rfl
@[simp] theorem State.setBankptr_config (v : Nat) :
    (s.setBankptr v).config = s.config := rfl
@[simp] theorem State.setBankptr_clamp (v : Nat) :
    (s.setBankptr v).clamp = s.clamp := rfl
@[simp] theorem State.setBankptr_bankptr (v : Nat) :
    (s.setBankptr v).bankptr = v := rfl
@[simp] theorem State.setBankptr_chr (v : Nat) :
    (s.setBankptr v).chr = s.chr := rfl
@[simp] theorem State.setBankptr_mirror (v : Nat) :
    (s.setBankptr v).mirror = s.mirror := rfl
@[simp] theorem State.setBankptr_mirrorWrites (v : Nat) :
    (s.setBankptr v).mirrorWrites = s.mirrorWrites := rfl
@[simp] theorem State.setBankptr_responses (v : Nat) :
    (s.setBankptr v).responses = s.responses := rfl
@[simp] theorem State.setBankptr_pending (v : Nat) :
    (s.setBankptr v).pending = s.pending := rfl

@[simp] theorem State.setChr_loaded (m : Memory) :
    (s.setChr m).loaded = s.loaded := rfl
@[simp] theorem State.setChr_config (m : Memory) :
    (s.setChr m).config = s.config := rfl
@[simp] theorem State.setChr_clamp (m : Memory) :
    (s.setChr m).clamp = s.clamp := rfl
@[simp] theorem State.setChr_bankptr (m : Memory) :
    (s.setChr m).bankptr = s.bankptr := rfl
@[simp] theorem State.setChr_chr (m : Memory) :
    (s.setChr m).chr = m := rfl
@[simp] theorem State.setChr_mirror (m : Memory) :
    (s.setChr m).mirror = s.mirror := rfl
@[simp] theorem State.setChr_mirrorWrites (m : Memory) :
    (s.setChr m).mirrorWrites = s.mirrorWrites := rfl
@[simp] theorem State.setChr_responses (m : Memory) :
    (s.setChr m).responses = s.responses := rfl
@[simp] theorem State.setChr_pending (m : Memory) :
    (s.setChr m).pending = s.pending := rfl

@[simp] theorem State.setPrgRom_loaded (m : Memory) :
    (s.setPrgRom m).loaded = s.loaded := rfl
@[simp] theorem State.setPrgRom_config (m : Memory) :
    (s.setPrgRom m).config = { s.config with prgRom := m } := rfl
@[simp] theorem State.setPrgRom_clamp (m : Memory) :
    (s.setPrgRom m).clamp = s.clamp := rfl
@[simp] theorem State.setPrgRom_bankptr (m : Memory) :
    (s.setPrgRom m).bankptr = s.bankptr := rfl
@[simp] theorem State.setPrgRom_chr (m : Memory) :
    (s.setPrgRom m).chr = s.chr := rfl
@[simp] theorem State.setPrgRom_mirror (m : Memory) :
    (s.setPrgRom m).mirror = s.mirror := rfl
@[simp] theorem State.setPrgRom_mirrorWrites (m : Memory) :
    (s.setPrgRom m).mirrorWrites = s.mirrorWrites := rfl
@[simp] theorem State.setPrgRom_responses (m : Memory) :
    (s.setPrgRom m).responses = s.responses := rfl
@[simp] theorem State.setPrgRom_pending (m : Memory) :
    (s.setPrgRom m).pending = s.pending := rfl

@[simp] theorem State.setPending_loaded (es : List Event) :
    (s.setPending es).loaded = s.loaded := rfl
@[simp] theorem State.setPending_config (es : List Event) :
    (s.setPending es).config = s.config := rfl
@[simp] theorem State.setPending_clamp (es : List Event) :
    (s.setPending es).clamp = s.clamp := rfl
@[simp] theorem State.setPending_bankptr (es : List Event) :
    (s.setPending es).bankptr = s.bankptr := rfl
@[simp] theorem State.setPending_chr (es : List Event) :
    (s.setPending es).chr = s.chr := rfl
@[simp] theorem State.setPending_mirror (es : List Event) :
    (s.setPending es).mirror = s.mirror := rfl
@[simp] theorem State.setPending_mirrorWrites (es : List Event) :
    (s.setPending es).mirrorWrites = s.mirrorWrites := rfl
@[simp] theorem State.setPending_responses (es : List Event) :
    (s.setPending es).responses = s.responses := rfl
@[simp] theorem State.setPending_pending (es : List Event) :
    (s.setPending es).pending = es := rfl

end Sys2Proof.Machine
end

