-- ==== Sys2Proof/Laws/Ops.lean ====
section
/-! SUPPORT. What each shared operation can do, said once. -/

namespace Sys2Proof.Machine

/-- On a live block a well-formed transaction has its own effect. -/
theorem transact_live {i : Instr} {s : State} (e : Result) (hl : s.loaded = true)
    (hw : i.wellFormed = true) : transact i s e = e := by simp [transact, hl, hw]

theorem transact_beforeLoad {i : Instr} {s : State} (e : Result) (hl : s.loaded = false) :
    transact i s e = .refused .beforeLoad := by simp [transact, hl]

/-- A transaction answers a next state only after LOAD, on a well-formed term, by its own effect. -/
theorem transact_next {i : Instr} {s t : State} {e : Result} (h : transact i s e = .next t) :
    s.loaded = true ∧ i.wellFormed = true ∧ e = .next t := by
  simp only [transact] at h
  split at h
  · split at h
    · exact ⟨‹_›, ‹_›, h⟩
    · cases h
  · cases h

theorem respondFrom_inside {m : Memory} {i : Nat} (side : Side) (f : Fault) (s : State)
    (h : i < m.size) : respondFrom m i side f s = .next (s.respond side (cellsGet m.cells i)) := by
  simp [respondFrom, Memory.read_some h]

theorem respondFrom_of_read {m : Memory} {i : Nat} {b : Byte} (side : Side) (f : Fault) (s : State)
    (h : m.read i = some b) : respondFrom m i side f s = .next (s.respond side b) := by
  simp [respondFrom, h]

/-- A response from an array answers a next state only inside the array. -/
theorem respondFrom_next {m : Memory} {i : Nat} {side : Side} {f : Fault} {s t : State}
    (h : respondFrom m i side f s = .next t) :
    ∃ b, m.read i = some b ∧ t = s.respond side b := by
  simp only [respondFrom] at h
  split at h
  · cases h; exact ⟨_, ‹_›, rfl⟩
  · cases h

/-- A store answers a next state only inside the array, and changes only CHR. -/
theorem storeChr_next {i : Nat} {v : Byte} {s t : State} (h : storeChr i v s = .next t) :
    ∃ m, s.chr.write i v = some m ∧ t = s.setChr m := by
  simp only [storeChr] at h
  split at h
  · cases h; exact ⟨_, ‹_›, rfl⟩
  · cases h

theorem storeChr_inside {i : Nat} (v : Byte) {s : State} (hw : s.chr.wf = true)
    (hi : i < s.chr.size) :
    ∃ m, storeChr i v s = .next (s.setChr m) ∧ m.size = s.chr.size ∧ m.wf = true ∧
      m.read i = some v ∧ ∀ j, j ≠ i → m.read j = s.chr.read j := by
  obtain ⟨m, hm, h⟩ := Memory.write_spec v hw hi
  exact ⟨m, by simp [storeChr, hm], h⟩

/-- LOAD answers a next state only for a well-formed descriptor, and then the state of R35. -/
theorem load_next {d : Descriptor} {s t : State} (h : load d s = .next t) :
    d.canonical = true ∧ d.wellFormed = true ∧ t = State.afterLoad d s.pending := by
  simp only [load] at h
  split at h
  · split at h
    · cases h; exact ⟨‹_›, ‹_›, rfl⟩
    · cases h
  · cases h

theorem bankReq_le (v : Byte) : bankReq v ≤ 31 := by
  have : (v &&& 0x1F#8).toNat ≤ (0x1F#8 : BitVec 8).toNat := by
    rw [BitVec.toNat_and]; exact Nat.and_le_right
  simpa [bankReq] using this

/-- Every stored pointer is legal (30_encoding.md R75). -/
theorem bankSel_lt (v : Byte) {n : Nat} (h : 1 ≤ n) : bankSel v n < n := Nat.mod_lt _ h

theorem bankSel_le (v : Byte) (n : Nat) : bankSel v n ≤ 31 :=
  (Nat.mod_le _ _).trans (bankReq_le v)

/-! ### Translation, arm by arm (20_memory.md R47, R49) -/

theorem prgOff_switchable {a : Addr} (p c : Nat) (h : a.toNat < 0xC000) :
    prgOff p c a = p + (a.toNat - 0x8000) := if_pos h

theorem prgOff_fixed {a : Addr} (p c : Nat) (h : 0xC000 ≤ a.toNat) :
    prgOff p c a = c + (a.toNat - 0xC000) := if_neg (Nat.not_lt.2 h)

theorem chrOff_ram {d : Descriptor} (n : Nat) (h : d.chrBanks = 0) : chrOff d n = n := if_pos h

theorem chrOff_rom {d : Descriptor} (n : Nat) (h : d.chrBanks ≠ 0) :
    chrOff d n = n % (d.chrBanks * 8192) := if_neg h

/-- "The modulo never changes an address that passes the window test" (R49). -/
theorem chrOff_window (d : Descriptor) {n : Nat} (h : n < 0x2000) : chrOff d n = n := by
  by_cases hd : d.chrBanks = 0
  · exact chrOff_ram n hd
  · rw [chrOff_rom n hd, Nat.mod_eq_of_lt (by omega)]

end Sys2Proof.Machine
end

