-- ==== Sys2Proof/Laws/PerInstr.lean ====
section
/-! SUPPORT. Statements made per instruction. `EncodedFields`: the canonical word of an instruction
holds its side, its access kind, its address and its data in the fields of 30_encoding.md R70. -/

namespace Sys2Proof.Laws.EncodedFields

/-- The fields of the canonical word are the instruction's. -/
def Statement (i : Instr) : Prop :=
  sideField (encode i) = i.side ∧ rwField (encode i) = i.rw ∧ addrField (encode i) = i.addr ∧
    dataField (encode i) = i.data

theorem fields_of_encode (i : Instr) : Statement i := by simp [Statement, encode]

theorem rdprgSw (addr : Addr) : Statement (.rdprgSw addr) := fields_of_encode _
theorem rdprgFix (addr : Addr) : Statement (.rdprgFix addr) := fields_of_encode _
theorem rdprgLow (addr : Addr) : Statement (.rdprgLow addr) := fields_of_encode _
theorem wrprgSel (addr : Addr) (value : Byte) : Statement (.wrprgSel addr value) :=
  fields_of_encode _
theorem wrprgNop (addr : Addr) (value : Byte) : Statement (.wrprgNop addr value) :=
  fields_of_encode _
theorem rdchrWin (addr : Addr) : Statement (.rdchrWin addr) := fields_of_encode _
theorem rdchrOut (addr : Addr) : Statement (.rdchrOut addr) := fields_of_encode _
theorem wrchrWin (addr : Addr) (value : Byte) : Statement (.wrchrWin addr value) :=
  fields_of_encode _
theorem wrchrOut (addr : Addr) (value : Byte) : Statement (.wrchrOut addr value) :=
  fields_of_encode _

end Sys2Proof.Laws.EncodedFields
end

