-- ==== Sys2Proof/Laws/Run.lean ====
section
/-! SUPPORT. One step and one more step of a run. -/

namespace Sys2Proof.Machine

theorem step_idle {s : State} (h : s.pending = []) : step s = .next s := by simp only [step, h, idle]

theorem step_load {s : State} {d : Descriptor} {rest : List Event}
    (h : s.pending = .load d :: rest) : step s = load d (s.setPending rest) := by
  simp only [step, h]

theorem step_txn {s : State} {t : TWord} {rest : List Event} (h : s.pending = .txn t :: rest) :
    step s = exec (decode t) (s.setPending rest) := by
  simp only [step, h]

@[simp] theorem run_zero (s : State) : run 0 s = .next s := rfl

theorem coreRun_succ_next (M : Host.Core) {k : Nat} {s t : M.State} (h : M.step s = .next t) :
    M.run (k + 1) s = M.run k t := by
  simp only [Host.Core.run, h]

theorem coreRun_succ_inv (M : Host.Core) {k : Nat} {s u : M.State} (h : M.run (k + 1) s = .next u) :
    ∃ t, M.step s = .next t ∧ M.run k t = .next u := by
  simp only [Host.Core.run] at h
  cases hs : M.step s with
  | next t => rw [hs] at h; exact ⟨t, rfl, h⟩
  | fault f => rw [hs] at h; cases h
  | refused r => rw [hs] at h; cases h

theorem run_succ_next {k : Nat} {s t : State} (h : step s = .next t) :
    run (k + 1) s = run k t := coreRun_succ_next core h

/-- A run of at least one step answers a next state only if its first step does. -/
theorem run_succ_inv {k : Nat} {s u : State} (h : run (k + 1) s = .next u) :
    ∃ t, step s = .next t ∧ run k t = .next u := coreRun_succ_inv core h

end Sys2Proof.Machine
end

