-- ==== Sys2Proof/Laws/Platform.lean ====
section
/-! SUPPORT. What a move of the platform can do, said once, and what the moves hand over. -/

namespace Sys2Proof.Machine

/-- The block takes an event only where a step on it alone answers a next state. -/
theorem Platform.take_some {e : Event} {p q : Platform} (h : p.take e = some q) :
    ∃ s, step (p.block.setPending [e]) = .next s ∧ q = { p with block := s } := by
  simp only [Platform.take] at h
  split at h
  · cases h; exact ⟨_, ‹_›, rfl⟩
  · cases h
  · cases h

theorem Platform.take_next {e : Event} {p : Platform} {s : State}
    (h : step (p.block.setPending [e]) = .next s) : p.take e = some { p with block := s } := by
  simp only [Platform.take, h]

/-- Everything a move can do. -/
theorem Platform.move_some {m : HostMove} {p q : Platform} (h : p.move m = some q) :
    (∃ d s, m = .load d ∧ p.busy = false ∧ step (p.block.setPending [.load d]) = .next s ∧
      q = { block := s, busy := false, register := s.mirrorCode }) ∨
    (∃ t inputs s, m = .call t inputs ∧ p.busy = false ∧
      step (p.block.setPending [.txn (seen t inputs)]) = .next s ∧
      q = { p with block := s, busy := true }) ∨
    (m = .ret ∧ p.busy = true ∧ q = { p with busy := false }) ∨
    (∃ i v, m = .writePrgRom i v ∧
      q = { p with block := p.block.setPrgRom (p.block.config.prgRom.poke i v) }) ∨
    (∃ i v, m = .writeChr i v ∧ q = { p with block := p.block.setChr (p.block.chr.poke i v) }) ∨
    (∃ code, m = .setMirroring code ∧ q = { p with register := some code }) := by
  cases m with
  | load d =>
    simp only [Platform.move] at h
    split at h
    · cases h
    · obtain ⟨r, hr, rfl⟩ := Option.map_eq_some_iff.1 h
      obtain ⟨s, hs, rfl⟩ := take_some hr
      have hb : p.busy = false := by simpa using ‹¬p.busy = true›
      exact .inl ⟨d, s, rfl, hb, hs, by rw [hb]⟩
  | call t inputs =>
    simp only [Platform.move] at h
    split at h
    · cases h
    · obtain ⟨r, hr, rfl⟩ := Option.map_eq_some_iff.1 h
      obtain ⟨s, hs, rfl⟩ := take_some hr
      exact .inr (.inl ⟨t, inputs, s, rfl, by simpa using ‹¬p.busy = true›, hs, rfl⟩)
  | ret =>
    simp only [Platform.move] at h
    split at h
    · cases h; exact .inr (.inr (.inl ⟨rfl, ‹_›, rfl⟩))
    · cases h
  | writePrgRom i v => cases h; exact .inr (.inr (.inr (.inl ⟨i, v, rfl, rfl⟩)))
  | writeChr i v => cases h; exact .inr (.inr (.inr (.inr (.inl ⟨i, v, rfl, rfl⟩))))
  | setMirroring c => cases h; exact .inr (.inr (.inr (.inr (.inr ⟨c, rfl, rfl⟩))))

@[simp] theorem Platform.follow_nil (p : Platform) : p.follow [] = some p := rfl

/-- The moves can be followed exactly where the first can and the rest can after it. -/
theorem Platform.follow_cons {m : HostMove} {h : List HostMove} {p q : Platform} :
    p.follow (m :: h) = some q ↔ ∃ r, p.move m = some r ∧ r.follow h = some q :=
  Option.bind_eq_some_iff

/-- Where the data inputs carry the word's own DATA the block sees the word. -/
@[simp] theorem seen_data (t : TWord) : seen t (dataField t) = t := by
  simp only [seen]
  split
  · rename_i h
    conv_rhs => rw [← pack_fields t]
    rw [h.1, h.2]
  · rfl

theorem Memory.poke_of_write {m m' : Memory} {i : Nat} {v : Byte} (h : m.write i v = some m') :
    m.poke i v = m' := by simp [Memory.poke, h]

end Sys2Proof.Machine
end

