-- ==== Sys2Proof/Tests/Slice0.lean ====
section
/-! SUPPORT. Small tests: ill-formed terms, words decoded by hand from 30_encoding.md R70 and R77, one
step of every instruction with the results of 95_test_vectors.md, and for every statement with
hypotheses a state and operands that meet them, clause by clause at the edge of its range. -/

namespace Sys2Proof.Tests

open Sys2Proof Sys2Proof.Machine

/-! ### Ill-formed terms: one for each check of `Instr.wellFormed` -/

theorem test_illFormed_refused :
    Instr.wellFormed (.rdprgSw 0x7FFF) = false ∧ Instr.wellFormed (.rdprgSw 0xC000) = false ∧
    Instr.wellFormed (.rdprgFix 0xBFFF) = false ∧ Instr.wellFormed (.rdprgLow 0x8000) = false ∧
    Instr.wellFormed (.wrprgSel 0x7FFF 0) = false ∧ Instr.wellFormed (.wrprgNop 0x8000 0) = false ∧
    Instr.wellFormed (.rdchrWin 0x2000) = false ∧ Instr.wellFormed (.rdchrOut 0x1FFF) = false ∧
    Instr.wellFormed (.wrchrWin 0x2000 0) = false ∧ Instr.wellFormed (.wrchrOut 0x1FFF 0) = false := by
  decide

/-! ### Words written out bit by bit: SIDE, RW, ADDR, DATA -/

/-- 0, 0, 1011 1111 1111 1111, 0000 0000. -/
theorem test_decode_rdprgSw : decode 0b00101111111111111100000000 = .rdprgSw 0xBFFF := by decide

/-- 0, 0, 1101 0010 0011 0100, and DATA 1010 0101, which a read ignores. -/
theorem test_decode_rdprgFix : decode 0b00110100100011010010100101 = .rdprgFix 0xD234 := by decide

/-- 0, 0, 0110 0000 0000 0000, 0000 0000. -/
theorem test_decode_rdprgLow : decode 0b00011000000000000000000000 = .rdprgLow 0x6000 := by decide

/-- 0, 1, 1001 1010 1011 1100, 1110 0001. -/
theorem test_decode_wrprgSel : decode 0b01100110101011110011100001 = .wrprgSel 0x9ABC 0xE1 := by
  decide

/-- 0, 1, 0110 0000 0000 0000, 0001 1111. -/
theorem test_decode_wrprgNop : decode 0b01011000000000000000011111 = .wrprgNop 0x6000 0x1F := by
  decide

/-- 1, 0, 0001 1010 1011 1100, 0000 0000. -/
theorem test_decode_rdchrWin : decode 0b10000110101011110000000000 = .rdchrWin 0x1ABC := by decide

/-- 1, 0, 0110 0000 0000 0000, 0000 0000. -/
theorem test_decode_rdchrOut : decode 0b10011000000000000000000000 = .rdchrOut 0x6000 := by decide

/-- 1, 1, 0001 1111 1111 1111, 0101 1010. -/
theorem test_decode_wrchrWin : decode 0b11000111111111111101011010 = .wrchrWin 0x1FFF 0x5A := by
  decide

/-- 1, 1, 0011 1111 1111 1111, 0011 0011. -/
theorem test_decode_wrchrOut : decode 0b11001111111111111100110011 = .wrchrOut 0x3FFF 0x33 := by
  decide

theorem test_bytes_rejected_by_name :
    decodeBytes [0, 0, 0] = .error .tooFewBytes ∧
    decodeBytes [0, 0, 0, 0x04] = .error .widerThanWord ∧
    decodeBytes [0x07, 0x00, 0x80, 0x01, 0xEE] = .ok (.wrprgSel 0x8000 0x07, [0xEE]) := by
  refine ⟨rfl, rfl, rfl⟩

theorem test_tableWord_bounds :
    decodeTableWord 32 0x3FFFFFF = some (.wrchrOut 0xFFFF 0xFF) ∧
    decodeTableWord 32 0x4000000 = none ∧ decodeTableWord 26 0x0BFFF00 = some (.rdprgSw 0xBFFF) := by
  decide

/-! ### Cartridges of 95_test_vectors.md, with the pattern's bytes where a test looks -/

/-- Four banks; CHR RAM of `size` bytes. -/
def ramCart (size : Nat) (cells : List Host.Cell) : Descriptor where
  prgBanks := 4
  prgRom := ⟨65536, [(0x3, 0x03), (0x8005, 0x15), (0xBFFF, 0x17), (0xC005, 0x1D), (0xFFFF, 0x1F)]⟩
  chrBanks := 0
  chrRamSize := size
  chrInit := ⟨size, cells⟩

/-- Three banks; CHR ROM of `n` banks. -/
def romCart (n : Nat) (cells : List Host.Cell) : Descriptor where
  prgBanks := 3
  prgRom := ⟨49152, []⟩
  chrBanks := n
  chrRamSize := 12345
  chrInit := ⟨n * 8192, cells⟩

def ram1000 : State := State.afterLoad (ramCart 0x1000 [(0x10, 0x11), (0xFFF, 0x50)]) []
def ram4000 : State := State.afterLoad (ramCart 0x4000 [(0x1FFF, 0xA0), (0x2000, 0xA1)]) []
def rom2 : State := State.afterLoad (romCart 2 [(0x123, 0x29), (0x1FFF, 0xA0), (0x2000, 0xA1)]) []
def rom8 : State := State.afterLoad (romCart 8 [(0x100, 0x06)]) []

/-- The block before LOAD. -/
def cold : State := { State.reset with loaded := false, mirrorWrites := 0 }

def nextOf : Result → Option State
  | .next s => some s
  | _ => none

def refusalOf : Result → Option Refusal
  | .refused r => some r
  | _ => none

/-! ### One step of every instruction -/

/-- Section 4, row 4 banks, bank 2, 0x8005. -/
theorem test_rdprgSw_bank2 :
    (nextOf (exec (.rdprgSw 0x8005) (ram1000.setBankptr 0x8000))).map State.output
      = some [0x15] := by decide

/-- Section 4, the last byte of bank 2. -/
theorem test_rdprgSw_top :
    (nextOf (exec (.rdprgSw 0xBFFF) (ram1000.setBankptr 0x8000))).map State.output
      = some [0x17] := by decide

/-- Section 4, row 0xC005, with bank 2 selected. -/
theorem test_rdprgFix_last_bank :
    (nextOf (exec (.rdprgFix 0xC005) (ram1000.setBankptr 0x8000))).map State.output
      = some [0x1D] := by decide

/-- Section 4, the last byte of PRG_ROM. -/
theorem test_rdprgFix_top :
    (nextOf (exec (.rdprgFix 0xFFFF) ram1000)).map State.output = some [0x1F] := by decide

/-- Section 4, row 0x6000. -/
theorem test_rdprgLow : refusalOf (exec (.rdprgLow 0x6000) ram1000) = some .readBelowWindow := by
  decide

/-- S2: 31 mod 4 = 3; the bits above bit 4 set. -/
theorem test_wrprgSel_four_banks :
    (nextOf (exec (.wrprgSel 0xFFFF 0xFF) ram1000)).map State.bankptr = some 0xC000 := by decide

/-- P4 step 1: 31 mod 3 = 1, where a mask would give 3. -/
theorem test_wrprgSel_three_banks :
    (nextOf (exec (.wrprgSel 0x8000 0x1F) rom2)).map State.bankptr = some 0x4000 := by decide

/-- Section 3: `WRPRG 0x7FFF, 0x02` from BANKPTR 0x4000. -/
theorem test_wrprgNop :
    (nextOf (exec (.wrprgNop 0x7FFF 0x02) (ram1000.setBankptr 0x4000))).map State.bankptr
      = some 0x4000 := by decide

/-- Section 5, RAM of 0x1000: the last byte inside. -/
theorem test_rdchrWin_ram_inside :
    (nextOf (exec (.rdchrWin 0x0FFF) ram1000)).map State.output = some [0x50] := by decide

/-- Section 5, ROM of 2 banks, 0x1FFF. -/
theorem test_rdchrWin_rom :
    (nextOf (exec (.rdchrWin 0x1FFF) rom2)).map State.output = some [0xA0] := by decide

/-- Section 5, ROM of 2 banks: 0 although CHR[0x2000] is 0xA1. -/
theorem test_rdchrOut :
    (nextOf (exec (.rdchrOut 0x2000) rom2)).map State.output = some [0x00] := by decide

/-- Section 6, RAM of 0x1000, 0x0FFF: stored. -/
theorem test_wrchrWin_stores :
    (nextOf (exec (.wrchrWin 0x0FFF 0x77) ram1000)).bind (·.chr.read 0x0FFF) = some 0x77 := by
  decide

/-- Section 6, ROM: discarded. -/
theorem test_wrchrWin_rom : nextOf (exec (.wrchrWin 0x0123 0xFF) rom2) = some rom2 := by decide

/-- Section 6, RAM of 0x4000, 0x2000: ignored. -/
theorem test_wrchrOut : nextOf (exec (.wrchrOut 0x2000 0x33) ram4000) = some ram4000 := by decide

/-! ### LOAD, section 2 -/

theorem test_load_no_banks :
    refusalOf (load { Descriptor.least with prgBanks := 0 } cold) = some .malformedDescriptor := by
  decide

theorem test_load_short_prg :
    refusalOf (load { Descriptor.least with prgBanks := 2 } cold) = some .malformedDescriptor := by
  decide

theorem test_load_rom_ignores_ram_size :
    (nextOf (load (romCart 1 []) cold)).map (fun s => (s.clamp, s.bankptr, s.mirror))
      = some (0x8000, 0, .vertical) := by decide

/-- A zero byte is never listed, so this list is the form of no array. -/
theorem test_load_not_an_array :
    refusalOf (load (ramCart 0x1000 [(0x10, 0)]) cold) = some .notAnArray := by decide

theorem test_reset_is_load :
    nextOf (load Descriptor.least cold) = some State.reset := by decide

/-- The first step after reset runs a placed transaction. -/
theorem test_step_runs_placed_word :
    (nextOf (step (State.reset.withFetchWord 32 0x2200000))).map (fun s => (s.output, s.pending))
      = some ([0], []) := by decide

/-! ### Blocks in order -/

theorem reset_live : State.reset.Live := by constructor <;> decide
theorem ram1000_live : ram1000.Live := by constructor <;> decide
theorem ram4000_live : ram4000.Live := by constructor <;> decide
theorem rom2_live : rom2.Live := by constructor <;> decide
theorem rom8_live : rom8.Live := by constructor <;> decide
/-- With the last bank selected. -/
theorem ram1000_last_live : (ram1000.setBankptr 0xC000).Live := by constructor <;> decide

/-! ### Witnesses, one for each statement that has hypotheses -/

theorem witness_DecodeOfEncodeIsIdentity :
    Instr.wellFormed (.rdprgSw 0x8000) = true ∧ Instr.wellFormed (.rdprgSw 0xBFFF) = true ∧
    Instr.wellFormed (.rdprgFix 0xC000) = true ∧ Instr.wellFormed (.rdprgLow 0x7FFF) = true ∧
    Instr.wellFormed (.wrprgSel 0x8000 0xFF) = true ∧ Instr.wellFormed (.wrprgNop 0x7FFF 3) = true ∧
    Instr.wellFormed (.rdchrWin 0x1FFF) = true ∧ Instr.wellFormed (.rdchrOut 0x2000) = true ∧
    Instr.wellFormed (.wrchrWin 0x1FFF 1) = true ∧ Instr.wellFormed (.wrchrOut 0x2000 1) = true := by
  decide

theorem witness_StepRunsTheDecodedTransaction :
    (ram1000.setPending [.txn 0x1800007]).pending = .txn 0x1800007 :: [] := rfl

theorem witness_PlacedTableWordRunsNext : 0x3FFFFFF < 2 ^ 26 := by decide

theorem witness_SwitchableReadAnswersSelectedBank :
    ram1000.Live ∧ (0x8000 ≤ (0x8000 : Addr).toNat ∧ (0x8000 : Addr).toNat ≤ 0xBFFF) ∧
    (0x8000 ≤ (0xBFFF : Addr).toNat ∧ (0xBFFF : Addr).toNat ≤ 0xBFFF) :=
  ⟨ram1000_live, by decide, by decide⟩

theorem witness_FixedReadAnswersLastBank :
    ram1000.Live ∧ 0xC000 ≤ (0xC000 : Addr).toNat ∧ 0xC000 ≤ (0xFFFF : Addr).toNat :=
  ⟨ram1000_live, by decide, by decide⟩

theorem witness_ReadBelowWindowIsRefused :
    ram1000.loaded = true ∧ (0x7FFF : Addr).toNat ≤ 0x7FFF := by decide

theorem witness_BankSelectSetsPointer : ram1000.Live ∧ 0x8000 ≤ (0x8000 : Addr).toNat :=
  ⟨ram1000_live, by decide⟩

theorem witness_WriteBelowWindowChangesNothing :
    ram1000.loaded = true ∧ (0x7FFF : Addr).toNat ≤ 0x7FFF := by decide

theorem witness_HighValueBitsAreIgnored :
    ram1000.Live ∧ (0xE7 : Byte) &&& 0x1F = 0x07 &&& 0x1F := ⟨ram1000_live, by decide⟩

theorem witness_EverySelectAddressSelectsAlike :
    ram1000.Live ∧ 0x8000 ≤ (0x8000 : Addr).toNat ∧ 0x8000 ≤ (0xFFFF : Addr).toNat :=
  ⟨ram1000_live, by decide, by decide⟩

/-- One bank; 2^5 banks, also the least count that is the identity. -/
theorem witness_BankSelectAssembly : 1 ≤ 1 ∧ (1 ≤ 32 ∧ 5 ≤ 5 ∧ 32 = 2 ^ 5 ∧ 32 ≤ 32) := by decide

theorem witness_BitLevelPrgTranslation :
    (ram1000.Live ∧ (0xBFFF : Addr).getLsbD 15 = true) ∧
    (State.reset.Live ∧ State.reset.config.prgBanks = 1) ∧
    ((ram1000.setBankptr 0xC000).Live ∧ (ram1000.setBankptr 0xC000).bank = 4 - 1) :=
  ⟨⟨ram1000_live, by decide⟩, ⟨reset_live, rfl⟩, ⟨ram1000_last_live, by decide⟩⟩

theorem witness_BankIndexStaysLegal : (ram1000.setBankptr 0xC000).Live := ram1000_last_live

theorem witness_WindowsAgreeOnTheLastBank :
    (ram1000.setBankptr 0xC000).Live ∧
    (ram1000.setBankptr 0xC000).bank = (ram1000.setBankptr 0xC000).config.prgBanks - 1 ∧
    16383 ≤ 16383 := ⟨ram1000_last_live, by decide, le_refl _⟩

/-- `WRPRG 0x8000, 0x02` from a live block. -/
def selecting : State := ram1000.setPending ([0x1800002].map .txn)

theorem witness_FixedWindowSurvivesAnyRun :
    selecting.Live ∧ NoReload selecting.pending ∧
    run 1 selecting = .next (ram1000.setBankptr 0x8000) ∧ 0xC000 ≤ (0xC000 : Addr).toNat :=
  ⟨{ ram1000_live with }, by simp [NoReload, selecting], rfl, by decide⟩

theorem witness_ChrWindowReadAnswersArrayByte :
    (ram1000.Live ∧ (0x0FFF : Addr).toNat ≤ 0x1FFF ∧ ram1000.config.chrBanks = 0 ∧
      (0x0FFF : Addr).toNat < ram1000.config.chrRamSize) ∧
    (ram1000.Live ∧ (0x1000 : Addr).toNat ≤ 0x1FFF ∧ ram1000.config.chrBanks = 0 ∧
      ram1000.config.chrRamSize ≤ (0x1000 : Addr).toNat) ∧
    (rom2.Live ∧ (0x1FFF : Addr).toNat ≤ 0x1FFF ∧ rom2.config.chrBanks ≠ 0) :=
  ⟨⟨ram1000_live, by decide⟩, ⟨ram1000_live, by decide⟩, ⟨rom2_live, by decide⟩⟩

theorem witness_ChrReadOutsideWindowAnswersZero :
    ram1000.loaded = true ∧ 0x2000 ≤ (0x2000 : Addr).toNat ∧ 0x2000 ≤ (0x4000 : Addr).toNat ∧
    0x2000 ≤ (0x8000 : Addr).toNat := by decide

theorem witness_ChrWindowWriteStoresInRamOnly :
    (ram1000.Live ∧ (0x0FFF : Addr).toNat ≤ 0x1FFF ∧
      (ram1000.config.chrBanks = 0 ∧ (0x0FFF : Addr).toNat < ram1000.config.chrRamSize)) ∧
    (ram1000.Live ∧ (0x1000 : Addr).toNat ≤ 0x1FFF ∧
      ¬(ram1000.config.chrBanks = 0 ∧ (0x1000 : Addr).toNat < ram1000.config.chrRamSize)) ∧
    (rom2.Live ∧ (0x1FFF : Addr).toNat ≤ 0x1FFF ∧
      ¬(rom2.config.chrBanks = 0 ∧ (0x1FFF : Addr).toNat < rom2.config.chrRamSize)) :=
  ⟨⟨ram1000_live, by decide⟩, ⟨ram1000_live, by decide⟩, ⟨rom2_live, by decide⟩⟩

theorem witness_ChrWriteOutsideWindowChangesNothing :
    ram4000.loaded = true ∧ 0x2000 ≤ (0x2000 : Addr).toNat ∧ 0x2000 ≤ (0x4000 : Addr).toNat ∧
    0x2000 ≤ (0x8000 : Addr).toNat := by decide

theorem witness_ChrEnablesGuardEveryAccess :
    (ram1000.Live ∧ chrEn ram1000.config 0x1000 .read = false ∧
      chrEn ram1000.config 0x0FFF .write = true) ∧
    (rom2.Live ∧ chrEn rom2.config 0x1FFF .read = true ∧
      chrEn rom2.config 0x1FFF .write = false) :=
  ⟨⟨ram1000_live, by decide⟩, ⟨rom2_live, by decide⟩⟩

theorem witness_ChrReadLaws :
    (rom2.Live ∧ rom2.config.chrBanks ≠ 0 ∧ (0x1FFF : Addr).toNat < 0x2000 ∧
      0x2000 ≤ (0x2000 : Addr).toNat ∧ rom2.config.chrBanks % 8 ≠ 0) ∧
    (rom8.Live ∧ rom8.config.chrBanks ≠ 0 ∧ rom8.config.chrBanks % 8 = 0) ∧
    (ram1000.Live ∧ ram1000.config.chrBanks = 0 ∧
      (0x0FFF : Addr).toNat < min 0x2000 ram1000.config.chrRamSize ∧
      min 0x2000 ram1000.config.chrRamSize ≤ (0x1000 : Addr).toNat) :=
  ⟨⟨rom2_live, by decide⟩, ⟨rom8_live, by decide⟩, ⟨ram1000_live, by decide⟩⟩

theorem witness_ChrWriteLaws :
    (rom2.Live ∧ rom2.config.chrBanks ≠ 0) ∧
    (ram4000.Live ∧ ram4000.config.chrBanks = 0 ∧
      (0x1FFF : Addr).toNat < min 0x2000 ram4000.config.chrRamSize ∧ (0 : Addr) ≠ 0x1FFF ∧
      min 0x2000 ram4000.config.chrRamSize ≤ (0x2000 : Addr).toNat) :=
  ⟨⟨rom2_live, by decide⟩, ⟨ram4000_live, by decide⟩⟩

/-- The CHR RAM of `ram4000` with its byte at 0x2000 replaced by 0x55. -/
theorem witness_UnreachableChrBytesAreInert :
    ram4000.Live ∧ Memory.wf ⟨0x4000, [(0x1FFF, 0xA0), (0x2000, 0x55)]⟩ = true ∧
    (∀ j, j < 0x2000 → Memory.read ⟨0x4000, [(0x1FFF, 0xA0), (0x2000, 0x55)]⟩ j =
      ram4000.chr.read j) ∧
    exec (.rdchrWin 0x1FFF) ram4000 = .next (ram4000.respond .ppu 0xA0) := by
  refine ⟨ram4000_live, by decide, fun j hj => ?_, rfl⟩
  have hne : 0x2000 ≠ j := by omega
  simp [Memory.read, cellsGet, ram4000, State.afterLoad, ramCart, hne]

theorem witness_LoadChecksAndConstructs :
    (Descriptor.canonical (ramCart 0 []) = true ∧
      (cold.setPending [.load (ramCart 0 [])]).pending = .load (ramCart 0 []) :: [] ∧
      (ramCart 0 []).prgBanks ≠ 0 ∧
      (ramCart 0 []).prgRom.size = (ramCart 0 []).prgBanks * 16384 ∧
      (0 < (ramCart 0 []).chrBanks →
        (ramCart 0 []).chrInit.size = (ramCart 0 []).chrBanks * 8192) ∧
      ((ramCart 0 []).chrBanks = 0 →
        (ramCart 0 []).chrInit.size = (ramCart 0 []).chrRamSize)) ∧
    (Descriptor.canonical { Descriptor.least with prgBanks := 0 } = true ∧
      Descriptor.prgBanks { Descriptor.least with prgBanks := 0 } = 0) ∧
    (Descriptor.canonical { Descriptor.least with chrRamSize := 1 } = true ∧
      (0 : Nat) ≠ Descriptor.chrRamSize { Descriptor.least with chrRamSize := 1 }) ∧
    (Descriptor.canonical { Descriptor.least with chrBanks := 1 } = true ∧
      (0 : Nat) ≠ Descriptor.chrBanks { Descriptor.least with chrBanks := 1 } * 8192) := by
  decide

theorem witness_TransactionBeforeLoadIsRefused :
    cold.loaded = false ∧ cold.unloaded ∧
    (cold.setPending [.txn 0]).pending = .txn 0 :: [] := ⟨rfl, ⟨rfl, rfl⟩, rfl⟩

/-- A live block and a cold one, with the same events to come. -/
theorem witness_LoadForgetsEarlierState :
    (ram1000.setPending [.load Descriptor.least]).pending = .load Descriptor.least :: [] ∧
    (cold.setPending [.load Descriptor.least]).pending = .load Descriptor.least :: [] :=
  ⟨rfl, rfl⟩

theorem witness_MirrorIsDrivenByLoadOnly :
    load Descriptor.least cold = .next State.reset ∧
    exec (.wrprgSel 0x8000 0x40) ram1000 = .next ram1000 := ⟨rfl, rfl⟩

theorem witness_ResetIsLive :
    (cold.setPending [.load Descriptor.least]).pending = [.load Descriptor.least] := rfl

/-- Before LOAD the invariant asks nothing; after it, it is R36. -/
theorem witness_StepKeepsInvariant :
    ((cold.setPending [.load Descriptor.least]).Inv ∧
      step (cold.setPending [.load Descriptor.least]) = .next State.reset) ∧
    (selecting.Inv ∧ step selecting = .next (ram1000.setBankptr 0x8000) ∧
      selecting.pending = .txn 0x1800002 :: []) :=
  ⟨⟨fun h => Bool.noConfusion h, rfl⟩,
    ⟨fun _ => { ram1000_live with }, rfl, rfl⟩⟩

theorem witness_OffsetsStayInsideArrays :
    (ram1000.Live ∧ 0x8000 ≤ (0xFFFF : Addr).toNat ∧ ram1000.config.chrBanks = 0 ∧
      chrEn ram1000.config 0x0FFF .write = true) ∧
    (rom2.Live ∧ rom2.config.chrBanks ≠ 0 ∧ chrEn rom2.config 0x1FFF .read = true) :=
  ⟨⟨ram1000_live, by decide⟩, ⟨rom2_live, by decide⟩⟩

theorem witness_EveryTransactionHasADefinedResult :
    ram1000.Live ∧ Instr.wellFormed (.rdprgSw 0x8000) = true ∧
    (∀ a, Instr.rdprgSw 0x8000 ≠ .rdprgLow a) :=
  ⟨ram1000_live, by decide, fun _ h => Instr.noConfusion h⟩

theorem witness_OutputMultiplexerGivesEveryResponse :
    ram1000.Live ∧ (signals .cpu .read 0xC005 ram1000).dout = some 0x1D ∧
    (signals .cpu .read 0x7FFF ram1000).dout = none ∧
    (signals .ppu .read 0x1000 ram1000).dout = some 0 :=
  ⟨ram1000_live, by decide, by decide, by decide⟩

theorem witness_FrameOfEveryTransaction :
    exec (.wrprgNop 0x7FFF 1) ram1000 = .next ram1000 ∧
    (∀ a v, Instr.wrprgNop 0x7FFF 1 ≠ .wrprgSel a v) ∧
    (∀ a v, Instr.wrprgNop 0x7FFF 1 ≠ .wrchrWin a v) ∧ ram1000.chr.wf = true ∧
    Instr.rw (.wrprgNop 0x7FFF 1) = .write ∧
    exec (.rdchrWin 0x0FFF) ram1000 = .next (ram1000.respond .ppu 0x50) ∧
    Instr.rw (.rdchrWin 0x0FFF) = .read :=
  ⟨rfl, fun _ _ h => Instr.noConfusion h, fun _ _ h => Instr.noConfusion h, by decide, rfl, rfl, rfl⟩

/-- The byte beside the stored one. -/
theorem witness_FrameOfEveryTransaction_store :
    (nextOf (exec (.wrchrWin 0x0FFF 0x77) ram1000)).isSome = true ∧ ram1000.chr.wf = true ∧
    (∀ a v, Instr.wrchrWin 0x0FFF 0x77 = .wrchrWin a v → 0x0FFE ≠ a.toNat) :=
  ⟨by decide, by decide, fun _ _ h => by cases h; decide⟩

theorem witness_ReadsArePure :
    Instr.rw (.rdchrWin 0x0FFF) = .read ∧
    exec (.rdchrWin 0x0FFF) ram1000 = .next (ram1000.respond .ppu 0x50) := ⟨rfl, rfl⟩

theorem witness_WritesAreIdempotent :
    ram1000.Live ∧ Instr.rw (.wrchrWin 0x0FFF 0x77) = .write ∧
    Instr.wellFormed (.wrchrWin 0x0FFF 0x77) = true := ⟨ram1000_live, rfl, by decide⟩

theorem witness_WriteIsCompleteBeforeTheNextTransaction :
    ((ram1000.setPending [.txn (pack .cpu .write 0x8000 2), .txn (pack .cpu .read 0xBFFF 0)]).Live ∧
      0x8000 ≤ (0x8000 : Addr).toNat ∧ 0x8000 ≤ (0xBFFF : Addr).toNat ∧
      (0xBFFF : Addr).toNat ≤ 0xBFFF) ∧
    ((ram1000.setPending [.txn (pack .ppu .write 0xFFF 2), .txn (pack .ppu .read 0xFFF 0)]).Live ∧
      ram1000.config.chrBanks = 0 ∧
      (0xFFF : Addr).toNat < min 0x2000 ram1000.config.chrRamSize) :=
  ⟨⟨{ ram1000_live with }, by decide⟩, ⟨{ ram1000_live with }, by decide⟩⟩

theorem witness_SidesCommute :
    Instr.side (.wrprgSel 0x8000 2) = .cpu ∧ Instr.side (.rdchrWin 0x0FFF) = .ppu ∧
    exec (.wrprgSel 0x8000 2) ram1000 = .next (ram1000.setBankptr 0x8000) ∧
    exec (.rdchrWin 0x0FFF) (ram1000.setBankptr 0x8000)
      = .next ((ram1000.setBankptr 0x8000).respond .ppu 0x50) := ⟨rfl, rfl, rfl, rfl⟩

/-- `WRPRG 0x8000, 0x02` and `RDCHR 0x0FFF`, either way round. -/
theorem select_then_read_noRefusal : NoRefusal [0x1800002, 0x20FFF00] := by
  intro t ht a
  rcases List.mem_cons.1 ht with rfl | ht
  · rw [show decode 0x1800002 = .wrprgSel 0x8000 0x02 by decide]
    exact fun h => Instr.noConfusion h
  · rw [List.mem_singleton.1 ht, show decode 0x20FFF00 = .rdchrWin 0x0FFF by decide]
    exact fun h => Instr.noConfusion h

theorem witness_EveryInterleavingGivesTheSameResult :
    ram1000.Live ∧ NoRefusal [0x1800002, 0x20FFF00] ∧
    onSide .cpu [0x1800002, 0x20FFF00] = onSide .cpu [0x20FFF00, 0x1800002] ∧
    onSide .ppu [0x1800002, 0x20FFF00] = onSide .ppu [0x20FFF00, 0x1800002] :=
  ⟨ram1000_live, select_then_read_noRefusal, by decide, by decide⟩

theorem witness_RunEndsWithTheLastSelectedBank :
    Descriptor.least.canonical = true ∧ Descriptor.least.wellFormed = true ∧
    NoRefusal [0x1800002, 0x20FFF00] ∧
    (cold.setPending (.load Descriptor.least :: [0x1800002, 0x20FFF00].map .txn)).pending
      = .load Descriptor.least :: [0x1800002, 0x20FFF00].map .txn ∧
    lastSelect [0x1800002, 0x20FFF00] = some 0x02 :=
  ⟨by decide, by decide, select_then_read_noRefusal, rfl, by decide⟩

theorem witness_RunEndsWithTheLastSelectedBank_none : lastSelect [0x20FFF00] = none := by decide

theorem witness_MirrorIsVerticalThroughoutEveryRun :
    (cold.setPending [.load Descriptor.least]).unloaded ∧
    LoadedFirst Descriptor.least [] (cold.setPending [.load Descriptor.least]).pending ∧
    run 1 (cold.setPending [.load Descriptor.least]) = .next State.reset :=
  ⟨⟨rfl, rfl⟩, rfl, rfl⟩

theorem witness_NoEventChangesNothing : State.reset.pending = [] := rfl

/-! ### The platform's moves (70_reset_and_hazards.md R163) -/

/-- 92_eei_decisions.md D12: a bus conflict reaches the block as another DATA; 0x07 AND 0x15 is 0x05. -/
theorem test_bus_conflict_is_seen_data : seen 0x1800007 (0x07 &&& 0x15) = 0x1800005 := by decide

/-- R158: a call that begins before the last one has returned is not one at a time. -/
theorem test_overlap_is_not_serial :
    oneAtATime false [.call 0x1800002 0x02, .call 0x2000000 0xFF, .ret, .ret] = false ∧
    (Platform.follow [.call 0x1800002 0x02, .call 0x2000000 0xFF]
      { block := State.reset, busy := false, register := none }).isNone = true := by decide

/-- Before LOAD the host fills a buffer and something drives the register; then LOAD and two calls. -/
def moves : List HostMove :=
  [.setMirroring 7, .writeChr 0 1, .load Descriptor.least, .call 0x1800002 0x02, .ret,
    .call 0x20FFF00 0x00, .ret]

def platform : Platform := { block := cold, busy := false, register := none }

theorem moves_loadedFirst :
    LoadedFirst Descriptor.least [0x1800002, 0x20FFF00] (handedOver moves) := by
  unfold LoadedFirst; decide

theorem moves_follow : (platform.follow moves).isSome = true := by rfl

/-- The moves can be followed, to some platform. -/
theorem moves_followed : ∃ q, platform.follow moves = some q := Option.isSome_iff_exists.1 moves_follow

theorem witness_NoRefusalIsThatNoStepRefuses :
    ram1000.Live ∧ NoRefusal [0x1800002, 0x20FFF00] ∧ ¬NoRefusal [0x1800002, 0x07FFF00] := by
  refine ⟨ram1000_live, select_then_read_noRefusal, fun h => ?_⟩
  exact h 0x07FFF00 (by decide) 0x7FFF (by decide)

theorem witness_MovesUnderThePremisesAreARun :
    platform.busy = false ∧ Descriptor.least.canonical = true ∧
    Descriptor.least.wellFormed = true ∧
    LoadedFirst Descriptor.least [0x1800002, 0x20FFF00] (handedOver moves) ∧
    NoRefusal [0x1800002, 0x20FFF00] ∧ Serial moves ∧ BuffersPrivate moves := by
  refine ⟨rfl, by decide, by decide, moves_loadedFirst, select_then_read_noRefusal,
    by unfold Serial; decide, ?_⟩
  intro m hm i v
  simp only [moves, sinceLoad, List.mem_cons, List.not_mem_nil, or_false] at hm
  rcases hm with rfl | rfl | rfl | rfl <;> exact ⟨nofun, nofun⟩

theorem witness_ValueAsSeenGivesTheIssuedBank :
    LoadedFirst Descriptor.least [0x1800002, 0x20FFF00] (handedOver moves) ∧ ValueAsSeen moves ∧
    (∃ q, platform.follow moves = some q) ∧ lastSelect (issued moves) = some 0x02 := by
  refine ⟨moves_loadedFirst, fun t inputs hm _ _ => ?_, moves_followed, by decide⟩
  simp only [moves, List.mem_cons, List.not_mem_nil, reduceCtorEq, HostMove.call.injEq, false_or,
    or_false] at hm
  rcases hm with ⟨rfl, rfl⟩ | ⟨rfl, rfl⟩ <;> decide

theorem witness_SoleMirrorWriterLeavesVertical :
    LoadedFirst Descriptor.least [0x1800002, 0x20FFF00] (handedOver moves) ∧
    SoleMirrorWriter moves ∧ (∃ q, platform.follow moves = some q) := by
  refine ⟨moves_loadedFirst, fun m hm c => ?_, moves_followed⟩
  simp only [moves, sinceLoad, List.mem_cons, List.not_mem_nil, or_false] at hm
  rcases hm with rfl | rfl | rfl | rfl <;> nofun

end Sys2Proof.Tests
end

/-! ## Proofs: the scope of the model (00_scope.md) -/

namespace Sys2Proof.Machine

/-- R71: every word selects an instruction within its row. -/
theorem decode_wellFormed (t : TWord) : (decode t).wellFormed = true :=
  classify_wellFormed (sideField t) (rwField t) (addrField t) (dataField t)

/-- Settles O5: decoding is total into the well-formed instructions, and `step_txn` is the step. -/
theorem stepRunsTheDecodedTransaction : Obligations.StepRunsTheDecodedTransaction := by
  intro s t rest hpending
  exact ⟨decode_wellFormed t, step_txn hpending⟩

end Sys2Proof.Machine

/-! ## Proofs: the state (10_state.md)

What a transaction can do to the state is said once (`Effect`, `exec_next`), and what a step does
per kind of event. That the invariant of R36 is kept is proved per update of the state. -/

namespace Sys2Proof.Machine

/-! ### What a transaction and a step can do -/

/-- The ways a transaction takes a state to its next state (R33, R43): a read answers its own side; a
bank select stores a pointer; a PPU write inside the CHR RAM stores a byte; any other write changes
nothing. -/
inductive Effect (i : Instr) (s : State) : State → Prop
  | answers (b : Byte) (isRead : i.rw = .read) : Effect i s (s.respond i.side b)
  | selects (a : Addr) (v : Byte) (isSelect : i = .wrprgSel a v) :
      Effect i s (s.setBankptr (newBankptr v s.config.prgBanks))
  | stores (a : Addr) (v : Byte) (m : Memory) (isStore : i = .wrchrWin a v)
      (ramMode : s.config.chrBanks = 0) (inside : a.toNat < s.config.chrRamSize)
      (written : s.chr.write a.toNat v = some m) : Effect i s (s.setChr m)
  | keeps (isWrite : i.rw = .write) : Effect i s s

theorem effect_of_respondFrom {i : Instr} {m : Memory} {n : Nat} {f : Fault} {s t : State}
    (hr : i.rw = .read) (h : respondFrom m n i.side f s = .next t) : Effect i s t := by
  obtain ⟨b, -, rfl⟩ := respondFrom_next h
  exact .answers b hr

/-- A transaction answers a next state only after LOAD, on a well-formed term, by one of the effects. -/
theorem exec_next {i : Instr} {s t : State} (h : exec i s = .next t) :
    s.loaded = true ∧ i.wellFormed = true ∧ Effect i s t := by
  cases i with
  | rdprgSw a =>
    obtain ⟨hl, hw, he⟩ := transact_next h
    exact ⟨hl, hw, effect_of_respondFrom rfl he⟩
  | rdprgFix a =>
    obtain ⟨hl, hw, he⟩ := transact_next h
    exact ⟨hl, hw, effect_of_respondFrom rfl he⟩
  | rdprgLow a =>
    obtain ⟨-, -, he⟩ := transact_next h
    cases he
  | wrprgSel a v =>
    obtain ⟨hl, hw, he⟩ := transact_next h
    cases he
    exact ⟨hl, hw, .selects a v rfl⟩
  | wrprgNop a v =>
    obtain ⟨hl, hw, he⟩ := transact_next h
    cases he
    exact ⟨hl, hw, .keeps rfl⟩
  | rdchrWin a =>
    obtain ⟨hl, hw, he⟩ := transact_next h
    refine ⟨hl, hw, ?_⟩
    split at he
    · split at he
      · exact effect_of_respondFrom rfl he
      · cases he
        exact .answers 0 rfl
    · exact effect_of_respondFrom rfl he
  | rdchrOut a =>
    obtain ⟨hl, hw, he⟩ := transact_next h
    cases he
    exact ⟨hl, hw, .answers 0 rfl⟩
  | wrchrWin a v =>
    obtain ⟨hl, hw, he⟩ := transact_next h
    refine ⟨hl, hw, ?_⟩
    split at he
    · next hram =>
      obtain ⟨m, hm, rfl⟩ := storeChr_next he
      exact .stores a v m rfl hram.1 hram.2 hm
    · cases he
      exact .keeps rfl
  | wrchrOut a v =>
    obtain ⟨hl, hw, he⟩ := transact_next h
    cases he
    exact ⟨hl, hw, .keeps rfl⟩

/-- A step on LOAD answers a next state only for a good descriptor, and then the state of R35. -/
theorem step_load_next {s s' : State} {d : Descriptor} {rest : List Event}
    (hp : s.pending = .load d :: rest) (h : step s = .next s') :
    d.canonical = true ∧ d.wellFormed = true ∧ s' = State.afterLoad d rest :=
  load_next ((step_load hp).symm.trans h)

/-- A step on a transaction answers a next state only after LOAD, by one of the decoded transaction's
effects. -/
theorem step_txn_next {s s' : State} {t : TWord} {rest : List Event}
    (hp : s.pending = .txn t :: rest) (h : step s = .next s') :
    s.loaded = true ∧ Effect (decode t) (s.setPending rest) s' := by
  obtain ⟨hl, -, heffect⟩ := exec_next ((step_txn hp).symm.trans h)
  exact ⟨hl, heffect⟩

/-- R98, R115: what no transaction changes. -/
theorem Effect.frame {i : Instr} {s t : State} (h : Effect i s t) :
    t.loaded = s.loaded ∧ t.config = s.config ∧ t.clamp = s.clamp ∧ t.mirror = s.mirror ∧
    t.mirrorWrites = s.mirrorWrites ∧ t.pending = s.pending ∧ t.chr.size = s.chr.size := by
  cases h with
  | answers => simp
  | selects => simp
  | stores a v m _ _ _ written => simp [(Memory.write_size written).2]
  | keeps => simp

/-! ### The invariant of R36, update by update -/

/-- R22, R35: what LOAD constructs is in order, for every descriptor that passes its tests. -/
theorem State.afterLoad_live {d : Descriptor} (rest : List Event) (hc : d.canonical = true)
    (hw : d.wellFormed = true) : (State.afterLoad d rest).Live := by
  simp only [Descriptor.canonical, Bool.and_eq_true] at hc
  simp only [Descriptor.wellFormed, Bool.and_eq_true, bne_iff_ne, beq_iff_eq] at hw
  obtain ⟨hprgWf, hchrWf⟩ := hc
  obtain ⟨⟨hbank, hprg⟩, hchr⟩ := hw
  exact {
    loaded := rfl
    hasBank := Nat.one_le_iff_ne_zero.2 hbank
    prgSize := hprg
    initSize := hchr
    prgWf := hprgWf
    initWf := hchrWf
    clampEq := rfl
    ptrAligned := rfl
    ptrLeClamp := Nat.zero_le _
    bankLe := by simp [State.bank, State.afterLoad]
    chrSize := hchr
    chrWf := hchrWf
    romFixed := fun _ => rfl
    mirrorVertical := rfl
    mirrorOnce := rfl }

theorem State.Live.setPending {s : State} (h : s.Live) (es : List Event) : (s.setPending es).Live :=
  { h with }

theorem State.Live.respond {s : State} (h : s.Live) (side : Side) (b : Byte) :
    (s.respond side b).Live :=
  { h with }

/-- R21, R36 (a) to (c): the pointer of a bank number that exists and fits five bits. -/
theorem State.Live.setBankptr {s : State} {n : Nat} (h : s.Live) (hlt : n < s.config.prgBanks)
    (hle : n ≤ 31) : (s.setBankptr (n * 16384)).Live :=
  { h with
    ptrAligned := Nat.mul_mod_left n 16384
    ptrLeClamp := by
      rw [State.setBankptr_bankptr, State.setBankptr_clamp, h.clampEq]
      exact Nat.mul_le_mul_right _ (Nat.le_sub_one_of_lt hlt)
    bankLe := by
      rw [State.bank, State.setBankptr_bankptr, Nat.mul_div_cancel n (by decide)]
      exact hle }

/-- R36 (d), (e): an array of the same length, in RAM mode. -/
theorem State.Live.setChr {s : State} {m : Memory} (h : s.Live) (ramMode : s.config.chrBanks = 0)
    (hsize : m.size = s.chr.size) (hwf : m.wf = true) : (s.setChr m).Live :=
  { h with
    chrSize := hsize.trans h.chrSize
    chrWf := hwf
    romFixed := fun hrom => absurd ramMode hrom }

theorem Effect.live {i : Instr} {s t : State} (h : Effect i s t) (hs : s.Live) : t.Live := by
  cases h with
  | answers b => exact hs.respond i.side b
  | selects a v => exact hs.setBankptr (bankSel_lt v hs.hasBank) (bankSel_le v _)
  | stores a v m _ ramMode _ written =>
    exact hs.setChr ramMode (Memory.write_size written).2 (Memory.write_wf hs.chrWf written)
  | keeps => exact hs

/-! ### The invariant, step by step and along a run -/

/-- R36: a step on LOAD constructs a live state, whatever the state before. -/
theorem live_of_step_load {s s' : State} {d : Descriptor} {rest : List Event}
    (hp : s.pending = .load d :: rest) (h : step s = .next s') : s'.Live := by
  obtain ⟨hc, hw, rfl⟩ := step_load_next hp h
  exact State.afterLoad_live rest hc hw

/-- A step on a transaction finds the block loaded, hence live, and its effect keeps it so. -/
theorem State.Inv.live_of_step_txn {s s' : State} {t : TWord} {rest : List Event} (h : s.Inv)
    (hp : s.pending = .txn t :: rest) (hstep : step s = .next s') : s'.Live := by
  obtain ⟨hl, heffect⟩ := step_txn_next hp hstep
  exact heffect.live ((h hl).setPending rest)

theorem State.Inv.step {s s' : State} (h : s.Inv) (hstep : step s = .next s') : s'.Inv := by
  match hp : s.pending with
  | [] =>
    rw [step_idle hp] at hstep
    cases hstep
    exact h
  | .load d :: rest => exact fun _ => live_of_step_load hp hstep
  | .txn t :: rest => exact fun _ => h.live_of_step_txn hp hstep

/-- A step from a live state, on whatever event, answers only live states. -/
theorem State.Live.step {s s' : State} (h : s.Live) (hstep : step s = .next s') : s'.Live := by
  match hp : s.pending with
  | [] =>
    rw [step_idle hp] at hstep
    cases hstep
    exact h
  | .load d :: rest => exact live_of_step_load hp hstep
  | .txn t :: rest => exact State.Inv.live_of_step_txn (fun _ => h) hp hstep

theorem State.Live.run {k : Nat} {s t : State} (h : s.Live) (hrun : run k s = .next t) : t.Live := by
  induction k generalizing s with
  | zero =>
    cases hrun
    exact h
  | succ k ih =>
    obtain ⟨u, hstep, hrest⟩ := run_succ_inv hrun
    exact ih (h.step hstep) hrest

/-! ### The statements -/

/-- Settles O32: `State.Inv.step` is the invariant, `live_of_step_load`, `State.Inv.live_of_step_txn`
and `Effect.frame` say what each kind of event leaves. -/
theorem stepKeepsInvariant : Obligations.StepKeepsInvariant := by
  intro s s' hinv hstep
  refine ⟨hinv.step hstep, fun d rest hp => live_of_step_load hp hstep, fun t rest hp => ?_⟩
  obtain ⟨-, heffect⟩ := step_txn_next hp hstep
  obtain ⟨-, hconfig, hclamp, -, -, -, hsize⟩ := heffect.frame
  exact ⟨hinv.live_of_step_txn hp hstep, hconfig, hclamp, hsize⟩

/-- Settles O30: LOAD constructs the state of R35, and no effect of an instruction touches MIRROR or
the count. -/
theorem mirrorIsDrivenByLoadOnly : Obligations.MirrorIsDrivenByLoadOnly := by
  refine ⟨fun d s t h => ?_, fun i s t h => ?_⟩
  · obtain ⟨-, -, rfl⟩ := load_next h
    exact ⟨rfl, rfl⟩
  · obtain ⟨-, -, heffect⟩ := exec_next h
    obtain ⟨-, -, -, hmirror, hwrites, -, -⟩ := heffect.frame
    exact ⟨hmirror, hwrites⟩

/-- Settles O44: the first step is LOAD and makes the block live; every later step keeps it live, and a
live block drives VERTICAL and has called once. -/
theorem mirrorIsVerticalThroughoutEveryRun : Obligations.MirrorIsVerticalThroughoutEveryRun := by
  intro s t d ts k ⟨_, hwrites⟩ hfirst hrun
  obtain ⟨u, hstep, hrest⟩ := run_succ_inv hrun
  have hlive : t.Live := (live_of_step_load hfirst hstep).run hrest
  exact ⟨hwrites, hlive, hlive.mirrorVertical, hlive.mirrorOnce⟩

/-- R93: after LOAD a bank select at any address from 0x8000 stores a pointer that the address has no
part in. -/
theorem exec_wrprgSel {s : State} {a : Addr} (v : Byte) (hl : s.loaded = true)
    (ha : 0x8000 ≤ a.toNat) :
    exec (.wrprgSel a v) s = .next (s.setBankptr (newBankptr v s.config.prgBanks)) :=
  transact_live _ hl (decide_eq_true ha)

/-- Settles O13, by `exec_wrprgSel` at both addresses. -/
theorem everySelectAddressSelectsAlike : Obligations.EverySelectAddressSelectsAlike := by
  intro s a a' v hs ha ha'
  exact ⟨_, exec_wrprgSel v hs.loaded ha, exec_wrprgSel v hs.loaded ha'⟩

/-- R21: the pointer of a live block is its bank number times 16384. -/
theorem State.Live.bankptr_eq {s : State} (h : s.Live) : s.bankptr = s.bank * 16384 :=
  (Nat.div_mul_cancel (Nat.dvd_of_mod_eq_zero h.ptrAligned)).symm

/-- R21: the bank of a live block exists. -/
theorem State.Live.bank_le {s : State} (h : s.Live) : s.bank ≤ s.config.prgBanks - 1 := by
  have hle : s.bank * 16384 ≤ (s.config.prgBanks - 1) * 16384 := by
    rw [← h.bankptr_eq, ← h.clampEq]
    exact h.ptrLeClamp
  exact Nat.le_of_mul_le_mul_right hle (by decide)

/-- Settles O16: 0x7C000 is 31 * 16384. -/
theorem bankIndexStaysLegal : Obligations.BankIndexStaysLegal := by
  intro s hs
  have hptr : s.bankptr ≤ 0x7C000 := by
    rw [hs.bankptr_eq]
    exact Nat.mul_le_mul_right 16384 hs.bankLe
  exact ⟨hs.ptrAligned, le_min hs.bankLe hs.bank_le, hptr, hs.bankptr_eq⟩

/-- Settles O31: the state after reset is `State.afterLoad` of the least descriptor, which passes LOAD's
tests. -/
theorem resetIsLive : Obligations.ResetIsLive := by
  have hc : Descriptor.least.canonical = true := by decide
  have hw : Descriptor.least.wellFormed = true := by decide
  refine ⟨State.afterLoad_live [] hc hw, fun s hp => ?_⟩
  rw [step_load hp, load, if_pos hc, if_pos hw]
  rfl

/-- Settles O45: the step on an empty list of events is `step_idle`. -/
theorem noEventChangesNothing : Obligations.NoEventChangesNothing := fun _ hp => step_idle hp

end Sys2Proof.Machine

/-! ## Proofs: memory (20_memory.md)

The address arithmetic of R47 to R52, then each of the four bus operations said once in terms of the
translation and the enables (`exec_rdprg` to `exec_wrchr`); the statements about reads and writes
follow from these. That the two sides do not meet (R56) is said by what each side can see
(`State.view`): a transaction commutes with its own side's view and leaves the other's. -/

namespace Sys2Proof.Machine

/-! ### Address bits and offsets (R47, R48, R52) -/

theorem addr_bit15_iff (a : Addr) : a.getLsbD 15 = true ↔ 0x8000 ≤ a.toNat := by
  have := a.isLt
  rw [BitVec.getLsbD, Nat.testBit_eq_decide_div_mod_eq, decide_eq_true_eq]
  omega

theorem addr_bit14_iff {a : Addr} (h : 0x8000 ≤ a.toNat) :
    a.getLsbD 14 = true ↔ 0xC000 ≤ a.toNat := by
  have := a.isLt
  rw [BitVec.getLsbD, Nat.testBit_eq_decide_div_mod_eq, decide_eq_true_eq]
  omega

theorem addr_low14 (a : Addr) : (a.extractLsb' 0 14).toNat = a.toNat % 16384 := by
  rw [BitVec.extractLsb'_toNat, Nat.shiftRight_zero]

/-- R47, R48: the offset is the window's bank and the fourteen low address bits. -/
theorem prgOff_eq_base_add_low {a : Addr} (p c : Nat) (h : 0x8000 ≤ a.toNat) :
    prgOff p c a = (if 0xC000 ≤ a.toNat then c else p) + a.toNat % 16384 := by
  have := a.isLt
  split
  · next hfix => rw [prgOff_fixed p c hfix]; omega
  · next hsw => rw [prgOff_switchable p c (by omega)]; omega

/-- R52: an offset of either window is at most the last of the last bank. -/
theorem State.Live.prgOff_le {s : State} {a : Addr} (hs : s.Live) (h : 0x8000 ≤ a.toNat) :
    prgOff s.bankptr s.clamp a ≤ s.clamp + 16383 := by
  have hptr := hs.ptrLeClamp
  rw [prgOff_eq_base_add_low _ _ h]
  split <;> omega

/-- R52: the last offset of the last bank is the last index of PRG_ROM. -/
theorem State.Live.clamp_add {s : State} (hs : s.Live) :
    s.clamp + 16383 = s.config.prgBanks * 16384 - 1 := by
  have hbank := hs.hasBank
  rw [hs.clampEq]
  omega

theorem State.Live.prgOff_lt {s : State} {a : Addr} (hs : s.Live) (h : 0x8000 ≤ a.toNat) :
    prgOff s.bankptr s.clamp a < s.config.prgRom.size := by
  have hle := hs.prgOff_le h
  have hlast := hs.clamp_add
  have hbank := hs.hasBank
  rw [hs.prgSize]
  omega

/-! ### The enables (R50) -/

theorem chrEn_read_iff (d : Descriptor) (a : Addr) :
    chrEn d a .read = true ↔ a.toNat < 0x2000 ∧ (0 < d.chrBanks ∨ a.toNat < d.chrRamSize) := by
  simp [chrEn, Nat.pos_iff_ne_zero]

theorem chrEn_write_iff (d : Descriptor) (a : Addr) :
    chrEn d a .write = true ↔ a.toNat < 0x2000 ∧ d.chrBanks = 0 ∧ a.toNat < d.chrRamSize := by
  simp [chrEn, inChrRam]

theorem chrWe_iff (d : Descriptor) (a : Addr) (rw : Access) :
    chrWe d a rw = true ↔ rw = .write ∧ chrEn d a .write = true := by
  simp [chrWe]

theorem chrEn_window {d : Descriptor} {a : Addr} {rw : Access} (h : chrEn d a rw = true) :
    a.toNat < 0x2000 := by
  cases rw with
  | read => exact ((chrEn_read_iff d a).1 h).1
  | write => exact ((chrEn_write_iff d a).1 h).1

/-- In RAM mode an enabled access of either kind is below the capacity. -/
theorem chrEn_inside_ram {d : Descriptor} {a : Addr} {rw : Access} (h : chrEn d a rw = true)
    (hram : d.chrBanks = 0) : a.toNat < d.chrRamSize := by
  cases rw with
  | read => exact ((chrEn_read_iff d a).1 h).2.resolve_left (by omega)
  | write =>
    obtain ⟨-, -, hin⟩ := (chrEn_write_iff d a).1 h
    exact hin

/-- R52: an enabled CHR access addresses a byte of CHR. -/
theorem State.Live.addr_lt_chr {s : State} {a : Addr} {rw : Access} (hs : s.Live)
    (h : chrEn s.config a rw = true) : a.toNat < s.chr.size := by
  have hwin := chrEn_window h
  rw [hs.chrSize, Descriptor.chrLength]
  split
  · next hram => exact chrEn_inside_ram h hram
  · omega

/-! ### The four bus operations after LOAD -/

/-- R71: a transaction is the class of its own fields. -/
theorem classify_fields {i : Instr} (hw : i.wellFormed = true) :
    classify i.side i.rw i.addr i.data = i := by
  cases i with
  | rdprgSw a =>
    simp only [Instr.wellFormed, Bool.and_eq_true, decide_eq_true_eq] at hw
    exact (if_neg (Nat.not_lt.2 hw.1)).trans (if_pos hw.2)
  | rdprgFix a =>
    have ha : ¬a.toNat < 0xC000 := Nat.not_lt.2 (of_decide_eq_true hw)
    exact (if_neg fun hlow => ha (Nat.lt_trans hlow (by decide))).trans (if_neg ha)
  | rdprgLow a | wrprgNop a v | rdchrWin a | wrchrWin a v => exact if_pos (of_decide_eq_true hw)
  | wrprgSel a v | rdchrOut a | wrchrOut a v =>
    exact if_neg (Nat.not_lt.2 (of_decide_eq_true hw))

/-- R90 to R92. -/
theorem exec_rdprg {s : State} (hl : s.loaded = true) (a : Addr) (d : Byte) :
    exec (classify .cpu .read a d) s =
      if 0x8000 ≤ a.toNat then
        respondFrom s.config.prgRom (prgOff s.bankptr s.clamp a) .cpu .prgOffsetOutsideRom s
      else .refused .readBelowWindow := by
  have hw := classify_wellFormed .cpu .read a d
  simp only [classify] at hw ⊢
  split at hw
  · next hlow =>
    rw [if_pos hlow, if_neg (Nat.not_le.2 hlow)]
    exact transact_live _ hl hw
  · next hlow =>
    rw [if_neg hlow, if_pos (Nat.not_lt.1 hlow)]
    split at hw
    · next hsw =>
      rw [if_pos hsw, prgOff_switchable _ _ hsw]
      exact transact_live _ hl hw
    · next hsw =>
      rw [if_neg hsw, prgOff_fixed _ _ (Nat.not_lt.1 hsw)]
      exact transact_live _ hl hw

/-- R93, R94. -/
theorem exec_wrprg {s : State} (hl : s.loaded = true) (a : Addr) (v : Byte) :
    exec (classify .cpu .write a v) s =
      if 0x8000 ≤ a.toNat then .next (s.setBankptr (newBankptr v s.config.prgBanks))
      else .next s := by
  by_cases hlow : a.toNat < 0x8000
  · rw [classify, if_pos hlow, if_neg (Nat.not_le.2 hlow)]
    exact transact_live _ hl (decide_eq_true hlow)
  · rw [classify, if_neg hlow, if_pos (Nat.not_lt.1 hlow)]
    exact exec_wrprgSel v hl (Nat.not_lt.1 hlow)

/-- R110, R111: the CHR array behind the enable of R50. -/
theorem exec_rdchr {s : State} (hl : s.loaded = true) (a : Addr) (d : Byte) :
    exec (classify .ppu .read a d) s =
      if chrEn s.config a .read then
        respondFrom s.chr (chrOff s.config a.toNat) .ppu .chrOffsetOutsideArray s
      else .next (s.respond .ppu 0) := by
  by_cases hwin : a.toNat < 0x2000
  · rw [classify, if_pos hwin]
    refine (transact_live _ hl (by exact decide_eq_true hwin)).trans ?_
    by_cases hram : s.config.chrBanks = 0
    · simp [chrEn_read_iff, hwin, hram, chrOff_ram]
    · simp [chrEn_read_iff, hwin, hram, chrOff_rom, Nat.pos_of_ne_zero]
  · rw [classify, if_neg hwin, if_neg fun hen => hwin (chrEn_window hen)]
    exact transact_live _ hl (decide_eq_true (Nat.not_lt.1 hwin))

/-- R113, R114: the store behind the enable of R50. -/
theorem exec_wrchr {s : State} (hl : s.loaded = true) (a : Addr) (v : Byte) :
    exec (classify .ppu .write a v) s =
      if chrEn s.config a .write then storeChr a.toNat v s else .next s := by
  by_cases hwin : a.toNat < 0x2000
  · rw [classify, if_pos hwin]
    refine (transact_live _ hl (by exact decide_eq_true hwin)).trans ?_
    simp [chrEn_write_iff, hwin]
  · rw [classify, if_neg hwin, if_neg fun hen => hwin (chrEn_window hen)]
    exact transact_live _ hl (decide_eq_true (Nat.not_lt.1 hwin))

/-! ### Reads: the output multiplexer (R43, R51) -/

theorem respondFrom_eq_next_iff {m : Memory} {n : Nat} {side : Side} {f : Fault} {s t : State} :
    respondFrom m n side f s = .next t ↔ ∃ b, m.read n = some b ∧ t = s.respond side b := by
  refine ⟨respondFrom_next, ?_⟩
  rintro ⟨b, hb, rfl⟩
  exact respondFrom_of_read side f s hb

/-- R51: after LOAD a read answers exactly where the output multiplexer has a byte, and answers
that byte. -/
theorem exec_read_iff {s t : State} (hl : s.loaded = true) (side : Side) (a : Addr) (d : Byte) :
    exec (classify side .read a d) s = .next t ↔
      ∃ b, outputMux side .read a s = some b ∧ t = s.respond side b := by
  cases side with
  | cpu =>
    rw [exec_rdprg hl, outputMux]
    split
    · exact respondFrom_eq_next_iff
    · simp
  | ppu =>
    rw [exec_rdchr hl, outputMux]
    split
    · exact respondFrom_eq_next_iff
    · rw [Host.Outcome.next.injEq, eq_comm]
      simp

/-- A response is no input of the multiplexer. -/
theorem outputMux_respond (side side' : Side) (rw : Access) (a : Addr) (s : State) (b : Byte) :
    outputMux side rw a (s.respond side' b) = outputMux side rw a s := by
  cases side <;> cases rw <;> rfl

/-- R51, R52: on a live block the multiplexer has a byte for every read inside the contract. -/
theorem State.Live.outputMux_some {s : State} (hs : s.Live) {side : Side} {a : Addr}
    (h : side = .cpu → 0x8000 ≤ a.toNat) : ∃ b, outputMux side .read a s = some b := by
  cases side with
  | cpu =>
    rw [outputMux, if_pos (h rfl)]
    exact ⟨_, Memory.read_some (hs.prgOff_lt (h rfl))⟩
  | ppu =>
    rw [outputMux]
    split
    · next hen =>
      rw [chrOff_window _ (chrEn_window hen)]
      exact ⟨_, Memory.read_some (hs.addr_lt_chr hen)⟩
    · exact ⟨0, rfl⟩

/-! ### Writes (R43, R55) -/

theorem Effect.responses_of_write {i : Instr} {s t : State} (h : Effect i s t)
    (hi : i.rw = .write) : t.responses = s.responses := by
  cases h with
  | answers b isRead => rw [hi] at isRead; cases isRead
  | selects | stores | keeps => rfl

/-- A store done twice: the second writes an array that already holds the byte. -/
theorem storeChr_twice {s : State} {n : Nat} (v : Byte) (hw : s.chr.wf = true)
    (hn : n < s.chr.size) :
    ∃ m, storeChr n v s = .next (s.setChr m) ∧
      storeChr n v (s.setChr m) = .next (s.setChr m) := by
  obtain ⟨m, hstore, hsize, hwf, hread, -⟩ := storeChr_inside v hw hn
  obtain ⟨m', hstore', hsize', hwf', hread', hother'⟩ :=
    storeChr_inside (s := s.setChr m) v hwf (hn.trans_eq hsize.symm)
  have hm : m' = m := by
    refine Memory.ext_of_read hwf' hwf hsize' fun j => ?_
    by_cases hj : j = n
    · rw [hj, hread', hread]
    · exact hother' j hj
  rw [hm] at hstore'
  exact ⟨m, hstore, hstore'⟩

/-- R43: on a live block every write answers, and answers the same state again. -/
theorem State.Live.write_twice {s : State} (hs : s.Live) (side : Side) (a : Addr) (v : Byte) :
    ∃ t, exec (classify side .write a v) s = .next t ∧
      exec (classify side .write a v) t = .next t := by
  cases side with
  | cpu =>
    by_cases ha : 0x8000 ≤ a.toNat
    · refine ⟨_, (exec_wrprg hs.loaded a v).trans (if_pos ha), ?_⟩
      rw [exec_wrprg (by exact hs.loaded), if_pos ha]
      rfl
    · have hkeep := (exec_wrprg hs.loaded a v).trans (if_neg ha)
      exact ⟨s, hkeep, hkeep⟩
  | ppu =>
    by_cases hen : chrEn s.config a .write = true
    · obtain ⟨m, hstore, hagain⟩ := storeChr_twice v hs.chrWf (hs.addr_lt_chr hen)
      exact ⟨s.setChr m, (exec_wrchr hs.loaded a v).trans ((if_pos hen).trans hstore),
        (exec_wrchr (s := s.setChr m) hs.loaded a v).trans ((if_pos hen).trans hagain)⟩
    · have hkeep := (exec_wrchr hs.loaded a v).trans (if_neg hen)
      exact ⟨s, hkeep, hkeep⟩

/-! ### Runs of transactions -/

theorem exec_pending {i : Instr} {s t : State} (h : exec i s = .next t) :
    t.pending = s.pending := by
  obtain ⟨-, -, heffect⟩ := exec_next h
  obtain ⟨-, -, -, -, -, hpending, -⟩ := heffect.frame
  exact hpending

theorem run_txn_next {k : Nat} {s t : State} {x : TWord} {rest : List Event}
    (hp : s.pending = .txn x :: rest) (h : exec (decode x) (s.setPending rest) = .next t) :
    run (k + 1) s = run k t :=
  run_succ_next ((step_txn hp).trans h)

/-- A run that begins with a transaction has its effect first, on the events after it. -/
theorem run_txn_inv {k : Nat} {s u : State} {x : TWord} {rest : List Event}
    (hp : s.pending = .txn x :: rest) (h : run (k + 1) s = .next u) :
    ∃ t, exec (decode x) (s.setPending rest) = .next t ∧ t.pending = rest ∧
      run k t = .next u := by
  obtain ⟨t, hstep, hrest⟩ := run_succ_inv h
  rw [step_txn hp] at hstep
  exact ⟨t, hstep, exec_pending hstep, hrest⟩

/-- R55: two transactions one after the other, the second on the state of the first. -/
theorem run_two_txns {s t u : State} {x y : TWord} {rest : List Event}
    (hp : s.pending = .txn x :: .txn y :: rest)
    (hx : exec (decode x) (s.setPending (.txn y :: rest)) = .next t)
    (hy : exec (decode y) (t.setPending rest) = .next u) : run 2 s = .next u := by
  rw [run_txn_next hp hx, run_txn_next (exec_pending hx) hy, run_zero]

/-- R130: on a live block every word but a CPU read below 0x8000 answers. -/
theorem State.Live.exec_answers {s : State} (hs : s.Live) {x : TWord}
    (h : ∀ a, decode x ≠ .rdprgLow a) : ∃ t, exec (decode x) s = .next t := by
  unfold decode at h ⊢
  cases hrw : rwField x with
  | read =>
    have hin : sideField x = .cpu → 0x8000 ≤ (addrField x).toNat := fun hside =>
      Nat.not_lt.1 fun hlow => h (addrField x) (by rw [hside, hrw]; exact if_pos hlow)
    obtain ⟨b, hb⟩ := hs.outputMux_some hin
    exact ⟨_, (exec_read_iff hs.loaded _ _ _).2 ⟨b, hb, rfl⟩⟩
  | write =>
    obtain ⟨t, ht, -⟩ := hs.write_twice (sideField x) (addrField x) (dataField x)
    exact ⟨t, ht⟩

/-- R130, R157: under `NoRefusal` the transactions of a live block run to the end of the list. -/
theorem run_answers {s : State} {ts : List TWord} (hs : s.Live) (hno : NoRefusal ts)
    (hp : s.pending = ts.map .txn) : ∃ t, run ts.length s = .next t ∧ t.pending = [] := by
  induction ts generalizing s with
  | nil => exact ⟨s, rfl, hp⟩
  | cons x ts ih =>
    have hno' := List.forall_mem_cons.1 hno
    obtain ⟨t, ht⟩ := (hs.setPending (ts.map .txn)).exec_answers hno'.1
    obtain ⟨-, -, heffect⟩ := exec_next ht
    obtain ⟨u, hu, hpu⟩ := ih (heffect.live (hs.setPending _)) hno'.2 (exec_pending ht)
    exact ⟨u, (run_txn_next hp ht).trans hu, hpu⟩

/-! ### What one side can see (R56) -/

/-- The state as far as one side can see it: the bank pointer is the CPU side's and the CHR array the
PPU side's; the other side's responses and the events still to come are left out. -/
def State.view (side : Side) (s : State) : State :=
  { s with
    bankptr := match side with
      | .cpu => s.bankptr
      | .ppu => 0
    chr := match side with
      | .cpu => { size := 0, cells := [] }
      | .ppu => s.chr
    responses := s.responses.filter (·.side = side)
    pending := [] }

@[simp] theorem State.view_loaded (side : Side) (s : State) :
    (s.view side).loaded = s.loaded := rfl
@[simp] theorem State.view_config (side : Side) (s : State) :
    (s.view side).config = s.config := rfl
@[simp] theorem State.view_chr_ppu (s : State) : (s.view .ppu).chr = s.chr := rfl

/-- The view of a result's state. -/
def viewResult (side : Side) : Result → Result
  | .next s => .next (s.view side)
  | .fault f => .fault f
  | .refused r => .refused r

theorem State.view_respond (side : Side) (s : State) (b : Byte) :
    (s.respond side b).view side = (s.view side).respond side b := by
  simp [State.view, State.respond]

theorem State.view_respond_other {side side' : Side} (s : State) (b : Byte) (h : side' ≠ side) :
    (s.respond side' b).view side = s.view side := by
  simp [State.view, State.respond, h]

theorem transact_view {i : Instr} {side : Side} {s : State} {e e' : Result}
    (h : e' = viewResult side e) :
    transact i (s.view side) e' = viewResult side (transact i s e) := by
  simp only [transact, State.view_loaded, h]
  split
  · split <;> rfl
  · rfl

theorem respondFrom_view (m : Memory) (n : Nat) (side : Side) (f : Fault) (s : State) :
    respondFrom m n side f (s.view side) = viewResult side (respondFrom m n side f s) := by
  simp only [respondFrom]
  split
  · rw [viewResult, State.view_respond]
  · rfl

theorem storeChr_view (n : Nat) (v : Byte) (s : State) :
    storeChr n v (s.view .ppu) = viewResult .ppu (storeChr n v s) := by
  simp only [storeChr, State.view_chr_ppu]
  split <;> rfl

/-- R56: what a transaction does to its own side's view, it does on that view alone. -/
theorem exec_view (i : Instr) (s : State) :
    exec i (s.view i.side) = viewResult i.side (exec i s) := by
  cases i with
  | rdprgSw a => exact transact_view (respondFrom_view ..)
  | rdprgFix a => exact transact_view (respondFrom_view ..)
  | rdprgLow a => exact transact_view rfl
  | wrprgSel a v => exact transact_view rfl
  | wrprgNop a v => exact transact_view rfl
  | rdchrWin a =>
    refine transact_view ?_
    rw [State.view_config]
    split
    · split
      · exact respondFrom_view ..
      · exact congrArg _ (State.view_respond ..).symm
    · exact respondFrom_view ..
  | rdchrOut a => exact transact_view (congrArg _ (State.view_respond ..).symm)
  | wrchrWin a v =>
    refine transact_view ?_
    rw [State.view_config]
    split
    · exact storeChr_view ..
    · rfl
  | wrchrOut a v => exact transact_view rfl

/-- R56: on two states that look alike to its side a transaction does alike. -/
theorem exec_next_of_view {i : Instr} {s t u : State} (h : exec i s = .next t)
    (hv : s.view i.side = u.view i.side) :
    ∃ w, exec i u = .next w ∧ t.view i.side = w.view i.side := by
  have hview : viewResult i.side (exec i u) = .next (t.view i.side) := by
    rw [← exec_view, ← hv, exec_view, h, viewResult]
  match hu : exec i u with
  | .next w =>
    rw [hu] at hview
    exact ⟨w, rfl, (Host.Outcome.next.inj hview).symm⟩
  | .fault f => rw [hu] at hview; cases hview
  | .refused r => rw [hu] at hview; cases hview

/-- R56: a transaction changes nothing the other side can see. -/
theorem exec_view_other {i : Instr} {side : Side} {s t : State} (h : exec i s = .next t)
    (hne : i.side ≠ side) : t.view side = s.view side := by
  obtain ⟨-, -, heffect⟩ := exec_next h
  cases heffect with
  | answers b => exact State.view_respond_other s b hne
  | selects a v isSelect =>
    subst isSelect
    cases side with
    | cpu => exact absurd rfl hne
    | ppu => rfl
  | stores a v m isStore =>
    subst isStore
    cases side with
    | cpu => rfl
    | ppu => exact absurd rfl hne
  | keeps => rfl

/-- What both sides see, with the events still to come, is the state but for the order of the
responses. -/
theorem eq_of_views {s t : State} (hp : s.pending = t.pending)
    (h : ∀ side, s.view side = t.view side) :
    { s with responses := [] } = { t with responses := [] } ∧
      ∀ side, s.outputOn side = t.outputOn side := by
  constructor
  · have hcpu := h .cpu
    have hppu := h .ppu
    simp only [State.view, State.mk.injEq] at hcpu hppu ⊢
    obtain ⟨hloaded, hconfig, hclamp, hptr, -, hmirror, hwrites, -, -⟩ := hcpu
    obtain ⟨-, -, -, -, hchr, -, -, -, -⟩ := hppu
    exact ⟨hloaded, hconfig, hclamp, hptr, hchr, hmirror, hwrites, trivial, hp⟩
  · exact fun side => congrArg (fun u : State => u.responses.map Response.byte) (h side)

/-- R56: along a run one side sees what it would see if its own transactions were the only ones. -/
theorem run_view {side : Side} {ts : List TWord} {s t u : State} (hp : s.pending = ts.map .txn)
    (hrun : run ts.length s = .next t) (hpu : u.pending = (onSide side ts).map .txn)
    (hv : s.view side = u.view side) :
    ∃ w, run (onSide side ts).length u = .next w ∧ t.view side = w.view side := by
  induction ts generalizing s u with
  | nil =>
    cases hrun
    exact ⟨u, rfl, hv⟩
  | cons x ts ih =>
    obtain ⟨s', hexec, hp', hrest⟩ := run_txn_inv hp hrun
    have hx : (decode x).side = sideField x := classify_side ..
    by_cases hside : sideField x = side
    · have hon : onSide side (x :: ts) = x :: onSide side ts :=
        List.filter_cons_of_pos (decide_eq_true hside)
      rw [hon] at hpu ⊢
      subst hside
      obtain ⟨u', hexecu, hv'⟩ :=
        exec_next_of_view (u := u.setPending ((onSide (sideField x) ts).map .txn)) hexec
          (by rw [hx]; exact hv)
      rw [hx] at hv'
      obtain ⟨w, hw, hend⟩ := ih hp' hrest (exec_pending hexecu) hv'
      exact ⟨w, (run_txn_next hpu hexecu).trans hw, hend⟩
    · have hon : onSide side (x :: ts) = onSide side ts :=
        List.filter_cons_of_neg (by simpa using hside)
      rw [hon] at hpu ⊢
      exact ih hp' hrest hpu ((exec_view_other hexec (hx ▸ hside)).trans hv)

/-! ### The statements -/

/-- Settles O15: CLAMP and BANKPTR are bank numbers times 16384, and bit 14 chooses between them. -/
theorem bitLevelPrgTranslation : Obligations.BitLevelPrgTranslation := by
  intro s a hs hbit
  have ha := (addr_bit15_iff a).1 hbit
  have hoff : prgOff s.bankptr s.clamp a =
      (if a.getLsbD 14 then s.config.prgBanks - 1 else s.bank) * 16384 +
        (a.extractLsb' 0 14).toNat := by
    rw [prgOff_eq_base_add_low _ _ ha, addr_low14, hs.clampEq, ite_mul, ← hs.bankptr_eq]
    simp only [addr_bit14_iff ha]
  refine ⟨ha, hoff, fun hone => ?_, fun hlast => ?_⟩
  · have hbank := hs.bank_le
    have hzero : s.bank = 0 := by omega
    rw [hoff, hone, hzero, ite_self, Nat.zero_mul, Nat.zero_add]
  · rw [hoff, hlast, ite_self]

/-- Settles O33: `State.Live.prgOff_le` and `State.Live.clamp_add` bound the PRG offset, a modulus
the wrapped CHR offset, and `State.Live.addr_lt_chr` an enabled one. -/
theorem offsetsStayInsideArrays : Obligations.OffsetsStayInsideArrays := by
  intro s a hs
  refine ⟨fun ha => ⟨hs.prgOff_le ha, hs.clamp_add, hs.prgOff_lt ha⟩, fun hrom n => ?_,
    fun rw hen => ?_⟩
  · rw [chrOff_rom n hrom]
    exact Nat.mod_lt _ (by omega)
  · rw [chrOff_window _ (chrEn_window hen)]
    exact ⟨hs.addr_lt_chr hen, fun hram => ⟨rfl, chrEn_inside_ram hen hram⟩⟩

/-- Settles O23: the conditions are `chrEn_read_iff`, `chrEn_write_iff` and `chrWe_iff`; `exec_rdchr`
and `exec_wrchr` say what the enables guard. -/
theorem chrEnablesGuardEveryAccess : Obligations.ChrEnablesGuardEveryAccess := by
  intro s a d hs
  refine ⟨chrEn_read_iff _ a, chrEn_write_iff _ a, chrWe_iff _ a, fun hoff => ?_, fun hoff => ?_⟩
  · rw [decode_pack, exec_rdchr hs.loaded, hoff]
    rfl
  · rw [decode_pack, exec_wrchr hs.loaded, hoff]
    rfl

/-- Settles O35: `exec_read_iff` for the reads with a byte, `State.Live.outputMux_some` for which
those are, `State.Live.write_twice` for the writes. -/
theorem outputMultiplexerGivesEveryResponse : Obligations.OutputMultiplexerGivesEveryResponse := by
  intro s side a d hs
  simp only [decode_pack]
  refine ⟨fun b hb => (exec_read_iff hs.loaded ..).2 ⟨b, hb, rfl⟩, fun hnone => ?_, ?_, ?_⟩
  · have hout : ¬(side = .cpu → 0x8000 ≤ a.toNat) := fun hin => by
      obtain ⟨b, hb⟩ := hs.outputMux_some hin
      cases hnone.symm.trans hb
    obtain ⟨rfl, hlow⟩ := Classical.not_imp.1 hout
    rw [exec_rdprg hs.loaded, if_neg hlow]
    exact ⟨rfl, Nat.not_le.1 hlow, rfl⟩
  · cases side <;> rfl
  · obtain ⟨t, ht, -⟩ := hs.write_twice side a d
    obtain ⟨-, -, heffect⟩ := exec_next ht
    exact ⟨t, ht, heffect.responses_of_write (classify_rw ..)⟩

/-- Settles O38: a read answers the multiplexer's byte, and the response it adds is no input of the
multiplexer. -/
theorem readsArePure : Obligations.ReadsArePure := by
  intro i s t hread h
  obtain ⟨hl, hw, -⟩ := exec_next h
  rw [← classify_fields hw, hread] at h
  obtain ⟨b, hb, rfl⟩ := (exec_read_iff hl ..).1 h
  refine ⟨b, rfl, ?_⟩
  have hagain : exec (classify i.side .read i.addr i.data) (s.respond i.side b) =
      .next ((s.respond i.side b).respond i.side b) :=
    (exec_read_iff (s := s.respond i.side b) hl ..).2
      ⟨b, (outputMux_respond ..).trans hb, rfl⟩
  rwa [← hread, classify_fields hw] at hagain

/-- Settles O39, by `State.Live.write_twice` at the instruction's own fields. -/
theorem writesAreIdempotent : Obligations.WritesAreIdempotent := by
  intro i s hs hwrite hw
  have htwice := hs.write_twice i.side i.addr i.data
  rwa [← hwrite, classify_fields hw] at htwice

/-- R55, CPU side: the read finds the pointer of the select before it. -/
theorem select_then_read {s : State} (hs : s.Live) (v : Byte) {a a' : Addr}
    {rest : List Event} (ha : 0x8000 ≤ a.toNat) (ha' : 0x8000 ≤ a'.toNat)
    (hp : s.pending = .txn (pack .cpu .write a v) :: .txn (pack .cpu .read a' 0) :: rest) :
    ∃ b, outputMux .cpu .read a' (s.setBankptr (newBankptr v s.config.prgBanks)) = some b ∧
      run 2 s = .next
        (((s.setBankptr (newBankptr v s.config.prgBanks)).setPending rest).respond .cpu b) := by
  have hlive : (s.setBankptr (newBankptr v s.config.prgBanks)).Live :=
    hs.setBankptr (bankSel_lt v hs.hasBank) (bankSel_le v _)
  obtain ⟨b, hb⟩ := hlive.outputMux_some (side := .cpu) fun _ => ha'
  have hloaded := (hs.setPending (.txn (pack .cpu .read a' 0) :: rest)).loaded
  have hselect := (exec_wrprg hloaded a v).trans (if_pos ha)
  rw [← decode_pack] at hselect
  refine ⟨b, hb, run_two_txns hp hselect ?_⟩
  rw [decode_pack]
  exact (exec_read_iff (hlive.setPending rest).loaded ..).2 ⟨b, hb, rfl⟩

/-- R55, PPU side: the read finds the byte of the store before it. -/
theorem store_then_read {s : State} (hs : s.Live) {v : Byte} {a : Addr}
    {rest : List Event} (hen : chrEn s.config a .write = true)
    (hp : s.pending = .txn (pack .ppu .write a v) :: .txn (pack .ppu .read a 0) :: rest) :
    ∃ m : Memory, m.size = s.chr.size ∧ m.read a.toNat = some v ∧
      (∀ i, i ≠ a.toNat → m.read i = s.chr.read i) ∧
      run 2 s = .next (((s.setChr m).setPending rest).respond .ppu v) := by
  obtain ⟨hwin, -, hin⟩ := (chrEn_write_iff _ a).1 hen
  have hread : chrEn s.config a .read = true := (chrEn_read_iff _ a).2 ⟨hwin, .inr hin⟩
  have hlive := hs.setPending (.txn (pack .ppu .read a 0) :: rest)
  obtain ⟨m, hstore, hsize, -, hbyte, hother⟩ :=
    storeChr_inside v hlive.chrWf (hlive.addr_lt_chr hen)
  have hwrite := ((exec_wrchr hlive.loaded a v).trans (if_pos hen)).trans hstore
  rw [← decode_pack] at hwrite
  have hmux : outputMux .ppu .read a (s.setChr m) = some v := by
    rw [outputMux, State.setChr_config, if_pos hread, chrOff_window _ hwin]
    exact hbyte
  refine ⟨m, hsize, hbyte, hother, run_two_txns hp hwrite ?_⟩
  rw [decode_pack]
  exact (exec_read_iff (s := (s.setChr m).setPending rest) hs.loaded ..).2 ⟨v, hmux, rfl⟩

/-- Settles O40, by `select_then_read` and `store_then_read`. -/
theorem writeIsCompleteBeforeTheNextTransaction :
    Obligations.WriteIsCompleteBeforeTheNextTransaction := by
  intro s v rest hs
  refine ⟨fun a a' ha ha' hsw hp => ?_, fun a hram hin hp => ?_⟩
  · obtain ⟨b, hb, hrun⟩ := select_then_read hs v ha ha' hp
    rw [outputMux, if_pos ha', prgOff_switchable _ _ (by omega)] at hb
    exact ⟨b, hb, hrun⟩
  · obtain ⟨hwin, hcap⟩ := lt_min_iff.1 hin
    exact store_then_read hs ((chrEn_write_iff _ a).2 ⟨hwin, hram, hcap⟩) hp

/-- Settles O41: each transaction leaves the other side's view alone, so each does the same on its
own side in either order. -/
theorem sidesCommute : Obligations.SidesCommute := by
  intro p q s s₁ s₂ hp hq hexecp hexecq
  have hne : p.side ≠ q.side := by
    rw [hp, hq]
    decide
  have hsq : s₁.view q.side = s.view q.side := exec_view_other hexecp hne
  have hsp : s₂.view p.side = s₁.view p.side := exec_view_other hexecq hne.symm
  obtain ⟨t₁, ht₁, hvq⟩ := exec_next_of_view hexecq hsq
  have htp : t₁.view p.side = s.view p.side := exec_view_other ht₁ hne.symm
  obtain ⟨t₂, ht₂, hvp⟩ := exec_next_of_view hexecp htp.symm
  have htq : t₂.view q.side = t₁.view q.side := exec_view_other ht₂ hne
  have hpending : t₂.pending = s₂.pending := by
    rw [exec_pending ht₂, exec_pending ht₁, exec_pending hexecq, exec_pending hexecp]
  refine ⟨t₁, t₂, ht₁, ht₂, eq_of_views hpending fun side => ?_⟩
  cases side with
  | cpu => exact hp ▸ hvp.symm.trans hsp.symm
  | ppu => exact hq ▸ htq.trans hvq.symm

/-- Settles O42: either list ends, for each side, as that side's own stream does (`run_view`), and
the streams are the same. -/
theorem everyInterleavingGivesTheSameResult : Obligations.EveryInterleavingGivesTheSameResult := by
  intro s us vs hs hno hcpu hppu
  have hsame : ∀ side, onSide side us = onSide side vs
    | .cpu => hcpu
    | .ppu => hppu
  have hno' : NoRefusal vs := fun x hx => by
    have hmem : x ∈ onSide (sideField x) us := by
      rw [hsame]
      exact List.mem_filter.2 ⟨hx, decide_eq_true rfl⟩
    exact hno x (List.mem_filter.1 hmem).1
  obtain ⟨t₁, hrun₁, hp₁⟩ := run_answers (hs.setPending (us.map .txn)) hno rfl
  obtain ⟨t₂, hrun₂, hp₂⟩ := run_answers (hs.setPending (vs.map .txn)) hno' rfl
  refine ⟨t₁, t₂, hrun₁, hrun₂, eq_of_views (hp₁.trans hp₂.symm) fun side => ?_⟩
  have hu : s.view side = (s.setPending ((onSide side us).map .txn)).view side := rfl
  obtain ⟨w₁, hw₁, hv₁⟩ := run_view rfl hrun₁ rfl hu
  obtain ⟨w₂, hw₂, hv₂⟩ := run_view rfl hrun₂ (congrArg (List.map _) (hsame side)) hu
  rw [← hsame side, hw₁] at hw₂
  cases hw₂
  exact hv₁.trans hv₂.symm

end Sys2Proof.Machine

/-! ## Proofs: encoding (30_encoding.md)

A packed word decodes as its fields are classified (`decode_pack`), so each statement about the
codec is one about `classify`. That the opcode table is a partition is decided over the five bits
that both the table and the decoder look at. -/

namespace Sys2Proof.Machine

/-! ### The codec (R70 to R72) -/

/-- R72: the data of a transaction's canonical word. -/
theorem classify_data (side : Side) (rw : Access) (a : Addr) (d : Byte) :
    (classify side rw a d).data = if rw = .read then 0 else d := by
  cases side <;> cases rw <;> simp only [classify, reduceIte, reduceCtorEq] <;>
    (repeat' split) <;> rfl

/-- R72: DATA plays no part in the class of a read. -/
theorem classify_read (side : Side) (a : Addr) (d d' : Byte) :
    classify side .read a d = classify side .read a d' := by
  cases side <;> rfl

/-- Settles O1: the canonical word packs the instruction's own fields, and `classify_fields` says of
which instruction they are. -/
theorem decodeOfEncodeIsIdentity : Obligations.DecodeOfEncodeIsIdentity :=
  fun _ hw => (decode_pack ..).trans (classify_fields hw)

/-- Settles O2, by `classify_read`, and field by field by the laws of `classify`. -/
theorem readDataIsIgnoredAndCanonicallyZero :
    Obligations.ReadDataIsIgnoredAndCanonicallyZero := by
  refine ⟨fun side a d d' => ?_, fun t => ?_⟩
  · rw [decode_pack, decode_pack]
    exact classify_read side a d d'
  · rw [encode, decode, classify_side, classify_rw, classify_addr, classify_data]

/-! ### The opcode table (R71, R77) -/

/-- The bits that choose the row of a word: SIDE, RW and the three top address bits. -/
def rowBits : TWord := 0x3E00000

/-- No row looks below the row bits. -/
theorem selects_and_rowBits {r : Row} (hr : r ∈ opcodeRows) (t : TWord) :
    r.selects (t &&& rowBits) = r.selects t := by
  have hmask : ∀ r ∈ opcodeRows, rowBits &&& r.mask = r.mask := by decide
  rw [Row.selects, Row.selects, BitVec.and_assoc, hmask r hr]

theorem and_rowBits_toNat (t : TWord) : (t &&& rowBits).toNat = t.toNat / 2 ^ 21 * 2 ^ 21 :=
  ((and_topMask t rowBits _ 21 (by decide) (by decide)).1 rfl).symm

theorem sideField_and_rowBits (t : TWord) : sideField (t &&& rowBits) = sideField t := by
  rw [sideField_eq, sideField_eq, and_rowBits_toNat]
  congr 2
  omega

theorem rwField_and_rowBits (t : TWord) : rwField (t &&& rowBits) = rwField t := by
  rw [rwField_eq, rwField_eq, and_rowBits_toNat]
  congr 2
  omega

/-- The bounds of R71 are multiples of 0x2000, so the three top address bits decide them. -/
theorem addrField_and_rowBits_lt (t : TWord) (k : Nat) :
    (addrField (t &&& rowBits)).toNat < k * 0x2000 ↔ (addrField t).toNat < k * 0x2000 := by
  rw [addrField_toNat, addrField_toNat, and_rowBits_toNat]
  omega

/-- The class of a transaction depends on the address through its conditions only. -/
theorem classify_mnemonic_congr (side : Side) (rw : Access) {a a' : Addr} (d d' : Byte)
    (h : ∀ k, a.toNat < k * 0x2000 ↔ a'.toNat < k * 0x2000) :
    (classify side rw a d).mnemonic = (classify side rw a' d').mnemonic := by
  have h2000 : a.toNat < 0x2000 ↔ a'.toNat < 0x2000 := h 1
  have h8000 : a.toNat < 0x8000 ↔ a'.toNat < 0x8000 := h 4
  have hC000 : a.toNat < 0xC000 ↔ a'.toNat < 0xC000 := h 6
  cases side <;> cases rw <;> simp only [classify, h2000, h8000, hC000] <;>
    (repeat' split) <;> rfl

/-- The decoder finds a word's class in its row bits alone. -/
theorem decode_and_rowBits_mnemonic (t : TWord) :
    (decode (t &&& rowBits)).mnemonic = (decode t).mnemonic := by
  rw [decode, sideField_and_rowBits, rwField_and_rowBits]
  exact classify_mnemonic_congr _ _ _ _ (addrField_and_rowBits_lt t)

/-- The thirty-two settings of the row bits, each with its one row. -/
theorem rows_of_rowBits : ∀ n < 32,
    (opcodeRows.filter (·.selects (BitVec.ofNat 26 (n * 2 ^ 21)))).map Row.mnemonic =
      [(decode (BitVec.ofNat 26 (n * 2 ^ 21))).mnemonic] := by
  decide

/-- R71, R77: exactly one row selects a word, and it is named as the word's class. -/
theorem rows_of_word (t : TWord) :
    (opcodeRows.filter (·.selects t)).map Row.mnemonic = [(decode t).mnemonic] := by
  have hn : t.toNat / 2 ^ 21 < 32 := by
    have := t.isLt
    omega
  have hword : t &&& rowBits = BitVec.ofNat 26 (t.toNat / 2 ^ 21 * 2 ^ 21) := by
    rw [← and_rowBits_toNat, BitVec.ofNat_toNat, BitVec.setWidth_eq]
  rw [← decode_and_rowBits_mnemonic, ← List.filter_congr fun r hr => selects_and_rowBits hr t, hword]
  exact rows_of_rowBits _ hn

/-- Settles O3: the row by `rows_of_word`, the fields by the laws of `classify`. -/
theorem everyWordSelectsExactlyOneRow : Obligations.EveryWordSelectsExactlyOneRow := fun t =>
  ⟨rows_of_word t, decode_wellFormed t, classify_side .., classify_rw .., classify_addr ..⟩

/-- Settles O4: fifteen closed words. -/
theorem workedEncodingsDecode : Obligations.WorkedEncodingsDecode := by
  unfold Obligations.WorkedEncodingsDecode
  decide

/-! ### Words out of bytes (log 21) -/

/-- The four bytes of a number, the most significant first, are its 32 bits. -/
theorem bytes_append_eq_ofNat (n : Nat) :
    BitVec.ofNat 8 (n / 2 ^ 24) ++ BitVec.ofNat 8 (n / 2 ^ 16) ++ BitVec.ofNat 8 (n / 2 ^ 8) ++
      BitVec.ofNat 8 n = BitVec.ofNat 32 n := by
  apply BitVec.eq_of_toNat_eq
  simp only [BitVec.toNat_append, ← Nat.shiftLeft_add_eq_or_of_lt (BitVec.ofNat 8 _).isLt]
  simp only [Nat.shiftLeft_eq, BitVec.toNat_ofNat]
  omega

/-- A number of at most 26 bits is a word, and its four bytes are read back as that word. -/
theorem wordOfBytes_fourBytes {n : Nat} (h : n < 2 ^ 26) :
    wordOfBytes (fourBytes n) = .ok (BitVec.ofNat 26 n, []) := by
  have hn : n % 2 ^ 32 = n := Nat.mod_eq_of_lt (by omega)
  simp only [fourBytes, wordOfBytes, bytes_append_eq_ofNat, BitVec.toNat_ofNat, hn, if_pos h]
  rw [BitVec.setWidth_ofNat_of_le (by decide)]

theorem tableWord_of_lt {w : Nat} (h : w < 2 ^ 26) :
    tableWord 32 w = some (BitVec.ofNat 26 w) := by
  have hlt : w < 2 ^ 32 := by omega
  simp only [tableWord, Nat.mod_eq_of_lt hlt, if_pos hlt, wordOfBytes_fourBytes h]

/-- Settles O6: the table word is read back (`tableWord_of_lt`), and placed it is the event that
`step_txn` runs. -/
theorem placedTableWordRunsNext : Obligations.PlacedTableWordRunsNext := by
  intro s w hw
  have hplaced : s.withFetchWord 32 w =
      s.setPending (.txn (BitVec.ofNat 26 w) :: s.pending) := by
    simp only [State.withFetchWord, tableWord_of_lt hw]
  constructor
  · rw [decodeTableWord, tableWord_of_lt hw, Option.map_some]
  · rw [hplaced]
    exact step_txn (State.setPending_pending ..)

/-! ### Operand assembly of the bank select (R75) -/

/-- R75: REQ is bits 4:0 of the value. -/
theorem bankReq_eq_low5 (v : Byte) : bankReq v = (v.extractLsb' 0 5).toNat := by
  rw [BitVec.extractLsb'_toNat, Nat.shiftRight_zero, bankReq, BitVec.toNat_and]
  exact Nat.and_two_pow_sub_one_eq_mod v.toNat 5

/-- R75: for a power of two the modulo is a mask. -/
theorem bankSel_two_pow (v : Byte) (k : Nat) : bankSel v (2 ^ k) = bankReq v &&& (2 ^ k - 1) :=
  (Nat.and_two_pow_sub_one_eq_mod _ _).symm

/-- R75: five bits ask for no bank beyond the thirty-second. -/
theorem bankSel_eq_bankReq (v : Byte) {n : Nat} (h : 32 ≤ n) : bankSel v n = bankReq v :=
  Nat.mod_eq_of_lt ((Nat.lt_succ_of_le (bankReq_le v)).trans_le h)

/-- Settles O14: SEL and the pointer are the model's own formulas; the bounds are `bankSel_le` and
`bankSel_lt`. -/
theorem bankSelectAssembly : Obligations.BankSelectAssembly := by
  intro v n hn
  have hsel : bankSel v n ≤ n - 1 := Nat.le_sub_one_of_lt (bankSel_lt v hn)
  refine ⟨bankReq_eq_low5 v, rfl, le_min (bankSel_le v n) hsel, rfl, ?_,
    Nat.mul_le_mul_right 16384 hsel, ?_, bankSel_eq_bankReq v⟩
  · exact (Nat.shiftLeft_eq (bankSel v n) 14).symm
  · rintro k - rfl
    exact bankSel_two_pow v k

end Sys2Proof.Machine

/-! ## Proofs: PRG operations (40_prg_operations.md)

Each decode class of the CPU side said once on its own constructor (`exec_rdprgLow`,
`State.Live.exec_rdprgSw`, `State.Live.exec_rdprgFix`, `exec_wrprgNop`; the select is
`exec_wrprgSel`). What a run of transactions makes of BANKPTR is said by `pointerAfter`, one
transaction at a time. -/

namespace Sys2Proof.Machine

/-! ### Words of an instruction (R70 to R72, R77) -/

/-- R77: a row's mask of the bits from `k` up, on the number of a packed word. -/
theorem pack_and_topMask {side : Side} {rw : Access} {a : Addr} {d : Byte} {m p : TWord} (k : Nat)
    (hk : k ≤ 26) (hm : m.toNat = 2 ^ 26 - 2 ^ k) :
    pack side rw a d &&& m = p ↔
      (side.bit.toNat * 2 ^ 25 + rw.bit.toNat * 2 ^ 24 + a.toNat * 2 ^ 8 + d.toNat) / 2 ^ k *
        2 ^ k = p.toNat := by
  rw [and_topMask _ _ _ k hk hm, pack_toNat]

/-- R72: a word of a read decodes to it whatever its DATA. -/
theorem decode_pack_read {i : Instr} (hw : i.wellFormed = true) (hr : i.rw = .read) (d : Byte) :
    decode (pack i.side .read i.addr d) = i := by
  rw [decode_pack, classify_read _ _ d i.data, ← hr]
  exact classify_fields hw

/-! ### The decode classes of the CPU side (R90 to R94) -/

theorem rdprgSw_wellFormed {a : Addr} (hlow : 0x8000 ≤ a.toNat) (hhigh : a.toNat ≤ 0xBFFF) :
    (Instr.rdprgSw a).wellFormed = true :=
  Bool.and_eq_true_iff.2 ⟨decide_eq_true hlow, decide_eq_true (Nat.lt_succ_of_le hhigh)⟩

/-- R90, R52: the offset of the selected bank is inside PRG_ROM, and its byte is the response. -/
theorem State.Live.exec_rdprgSw {s : State} {a : Addr} (hs : s.Live) (hlow : 0x8000 ≤ a.toNat)
    (hhigh : a.toNat ≤ 0xBFFF) :
    ∃ b, s.config.prgRom.read (s.bankptr + (a.toNat - 0x8000)) = some b ∧
      exec (.rdprgSw a) s = .next (s.respond .cpu b) := by
  have hlt := hs.prgOff_lt hlow
  rw [prgOff_switchable _ _ (Nat.lt_succ_of_le hhigh)] at hlt
  exact ⟨_, Memory.read_some hlt,
    (transact_live _ hs.loaded (rdprgSw_wellFormed hlow hhigh)).trans
      (respondFrom_inside _ _ s hlt)⟩

/-- R91, R52: the offset in the last bank is inside PRG_ROM, and its byte is the response. -/
theorem State.Live.exec_rdprgFix {s : State} {a : Addr} (hs : s.Live) (ha : 0xC000 ≤ a.toNat) :
    ∃ b, s.config.prgRom.read ((s.config.prgBanks - 1) * 16384 + (a.toNat - 0xC000)) = some b ∧
      exec (.rdprgFix a) s = .next (s.respond .cpu b) := by
  have hlt := hs.prgOff_lt (a := a) (Nat.le_trans (by decide) ha)
  rw [prgOff_fixed _ _ ha] at hlt
  rw [← hs.clampEq]
  exact ⟨_, Memory.read_some hlt,
    (transact_live _ hs.loaded (by exact decide_eq_true ha)).trans (respondFrom_inside _ _ s hlt)⟩

theorem exec_rdprgLow {s : State} {a : Addr} (hl : s.loaded = true) (ha : a.toNat < 0x8000) :
    exec (.rdprgLow a) s = .refused .readBelowWindow :=
  transact_live _ hl (decide_eq_true ha)

theorem exec_wrprgNop {s : State} {a : Addr} (v : Byte) (hl : s.loaded = true)
    (ha : a.toNat < 0x8000) : exec (.wrprgNop a v) s = .next s :=
  transact_live _ hl (decide_eq_true ha)

/-- R95: a CPU write sees bits 4:0 of the value only. -/
theorem exec_wrprg_congr {s : State} (hl : s.loaded = true) (a : Addr) {v v' : Byte}
    (h : v' &&& 0x1F = v &&& 0x1F) :
    exec (classify .cpu .write a v') s = exec (classify .cpu .write a v) s := by
  rw [exec_wrprg hl, exec_wrprg hl, newBankptr, newBankptr, bankSel, bankSel, bankReq, bankReq, h]

/-! ### What each effect leaves (R43, R98, R115) -/

theorem Effect.bankptr_of_not_select {i : Instr} {s t : State} (h : Effect i s t)
    (hi : ∀ a v, i ≠ .wrprgSel a v) : t.bankptr = s.bankptr := by
  cases h with
  | selects a v isSelect => exact absurd isSelect (hi a v)
  | answers | stores | keeps => rfl

theorem Effect.chr_of_not_store {i : Instr} {s t : State} (h : Effect i s t)
    (hi : ∀ a v, i ≠ .wrchrWin a v) : t.chr = s.chr := by
  cases h with
  | stores a v m isStore => exact absurd isStore (hi a v)
  | answers | selects | keeps => rfl

/-- R113: a store leaves every byte but the one it addresses. -/
theorem Effect.chr_read_other {i : Instr} {s t : State} {j : Nat} (h : Effect i s t)
    (hwf : s.chr.wf = true) (hj : ∀ a v, i = .wrchrWin a v → j ≠ a.toNat) :
    t.chr.read j = s.chr.read j := by
  cases h with
  | stores a v m isStore _ _ written => exact Memory.read_write_other hwf written (hj a v isStore)
  | answers | selects | keeps => rfl

theorem Effect.responses_of_read {i : Instr} {s t : State} (h : Effect i s t) (hi : i.rw = .read) :
    ∃ b, t.responses = s.responses ++ [⟨i.side, b⟩] := by
  cases h with
  | answers b => exact ⟨b, rfl⟩
  | selects a v isSelect => subst isSelect; cases hi
  | stores a v m isStore => subst isStore; cases hi
  | keeps isWrite => rw [hi] at isWrite; cases isWrite

/-! ### Runs without a LOAD (R22, R91, R98) -/

theorem noReload_txns (ts : List TWord) : NoReload (ts.map .txn) := by
  intro d hd
  obtain ⟨t, -, ht⟩ := List.mem_map.1 hd
  cases ht

/-- The configuration changes by LOAD only. -/
theorem step_noReload {s s' : State} (hno : NoReload s.pending) (h : step s = .next s') :
    s'.config = s.config ∧ NoReload s'.pending := by
  match hp : s.pending with
  | [] =>
    rw [step_idle hp] at h
    cases h
    exact ⟨rfl, hno⟩
  | .load d :: rest => exact absurd (hp ▸ List.mem_cons_self) (hno d)
  | .txn t :: rest =>
    obtain ⟨-, heffect⟩ := step_txn_next hp h
    obtain ⟨-, hconfig, -, -, -, hpending, -⟩ := heffect.frame
    rw [hp] at hno
    rw [hpending]
    exact ⟨hconfig, fun d hd => hno d (List.mem_cons_of_mem _ hd)⟩

theorem run_noReload_config {k : Nat} {s t : State} (hno : NoReload s.pending)
    (hrun : run k s = .next t) : t.config = s.config := by
  induction k generalizing s with
  | zero =>
    cases hrun
    rfl
  | succ k ih =>
    obtain ⟨u, hstep, hrest⟩ := run_succ_inv hrun
    obtain ⟨hconfig, hno'⟩ := step_noReload hno hstep
    exact (ih hno' hrest).trans hconfig

/-! ### The bank of the last select (R98) -/

theorem lastSelect_singleton_select {x : TWord} {a : Addr} {v : Byte}
    (h : decode x = .wrprgSel a v) : lastSelect [x] = some v := by
  simp [lastSelect, h]

theorem lastSelect_singleton_other {x : TWord} (h : ∀ a v, decode x ≠ .wrprgSel a v) :
    lastSelect [x] = none := by
  cases hx : decode x with
  | wrprgSel a v => exact absurd hx (h a v)
  | _ => simp [lastSelect, hx]

/-- The last select of a list is that of its tail, where the tail has one. -/
theorem lastSelect_cons (x : TWord) (ts : List TWord) :
    lastSelect (x :: ts) = (lastSelect ts).or (lastSelect [x]) := by
  simp only [lastSelect]
  cases lastSelect ts <;> rfl

/-- BANKPTR after some transactions, from a pointer `p` and with `n` banks. -/
def pointerAfter (n p : Nat) (ts : List TWord) : Nat := (lastSelect ts).elim p (newBankptr · n)

theorem pointerAfter_cons (n p : Nat) (x : TWord) (ts : List TWord) :
    pointerAfter n p (x :: ts) = pointerAfter n (pointerAfter n p [x]) ts := by
  rw [pointerAfter, pointerAfter, pointerAfter, lastSelect_cons]
  cases lastSelect ts <;> rfl

/-- One transaction moves BANKPTR as `pointerAfter` says. -/
theorem exec_bankptr {x : TWord} {s t : State} (h : exec (decode x) s = .next t) :
    t.bankptr = pointerAfter s.config.prgBanks s.bankptr [x] := by
  obtain ⟨hl, hw, heffect⟩ := exec_next h
  by_cases hsel : ∃ a v, decode x = .wrprgSel a v
  · obtain ⟨a, v, hx⟩ := hsel
    rw [hx] at h hw
    cases (exec_wrprgSel v hl (of_decide_eq_true hw)).symm.trans h
    rw [pointerAfter, lastSelect_singleton_select hx]
    rfl
  · have hother : ∀ a v, decode x ≠ .wrprgSel a v := fun a v hx => hsel ⟨a, v, hx⟩
    rw [pointerAfter, lastSelect_singleton_other hother]
    exact heffect.bankptr_of_not_select hother

theorem run_bankptr {ts : List TWord} {s t : State} (hp : s.pending = ts.map .txn)
    (hrun : run ts.length s = .next t) :
    t.bankptr = pointerAfter s.config.prgBanks s.bankptr ts := by
  induction ts generalizing s with
  | nil =>
    cases hrun
    rfl
  | cons x ts ih =>
    obtain ⟨u, hexec, hpu, hrest⟩ := run_txn_inv hp hrun
    obtain ⟨-, -, heffect⟩ := exec_next hexec
    obtain ⟨-, hconfig, -⟩ := heffect.frame
    rw [ih hpu hrest, exec_bankptr hexec, hconfig, ← pointerAfter_cons]
    rfl

/-! ### One response per read (R157) -/

/-- The sides of the reads among some transactions, in order. -/
def readSides (ts : List TWord) : List Side := (ts.filter (rwField · = .read)).map sideField

theorem readSides_cons (x : TWord) (ts : List TWord) :
    readSides (x :: ts) = readSides [x] ++ readSides ts := by
  rw [readSides, ← List.singleton_append, List.filter_append, List.map_append]
  rfl

theorem exec_response_sides {x : TWord} {s t : State} (h : exec (decode x) s = .next t) :
    t.responses.map Response.side = s.responses.map Response.side ++ readSides [x] := by
  obtain ⟨-, -, heffect⟩ := exec_next h
  have hside : (decode x).side = sideField x := classify_side ..
  have hrw : (decode x).rw = rwField x := classify_rw ..
  cases hx : rwField x with
  | read =>
    obtain ⟨b, hb⟩ := heffect.responses_of_read (hrw.trans hx)
    simp [readSides, hx, hb, hside]
  | write =>
    rw [heffect.responses_of_write (hrw.trans hx)]
    simp [readSides, hx]

theorem run_response_sides {ts : List TWord} {s t : State} (hp : s.pending = ts.map .txn)
    (hrun : run ts.length s = .next t) :
    t.responses.map Response.side = s.responses.map Response.side ++ readSides ts := by
  induction ts generalizing s with
  | nil =>
    cases hrun
    exact (List.append_nil _).symm
  | cons x ts ih =>
    obtain ⟨u, hexec, hpu, hrest⟩ := run_txn_inv hp hrun
    rw [ih hpu hrest, exec_response_sides hexec, List.append_assoc, ← readSides_cons]
    rfl

/-- R150: LOAD of a good descriptor answers the state of R35. -/
theorem step_load_good {s : State} {d : Descriptor} {rest : List Event}
    (hp : s.pending = .load d :: rest) (hc : d.canonical = true) (hw : d.wellFormed = true) :
    step s = .next (State.afterLoad d rest) := by
  rw [step_load hp, load, if_pos hc, if_pos hw]
  rfl

/-! ### The statements -/

/-- Settles O7, by `State.Live.exec_rdprgSw`; bits 25 to 22 of the word are 0010. -/
theorem switchableReadAnswersSelectedBank : Obligations.SwitchableReadAnswersSelectedBank := by
  intro s a d hs hlow hhigh
  refine ⟨(pack_and_topMask 22 (by decide) (by decide)).2 ?_,
    decode_pack_read (rdprgSw_wellFormed hlow hhigh) rfl d, hs.exec_rdprgSw hlow hhigh⟩
  have := d.isLt
  change (0 * 2 ^ 25 + 0 * 2 ^ 24 + a.toNat * 2 ^ 8 + d.toNat) / 2 ^ 22 * 2 ^ 22 = 0x0800000
  omega

/-- Settles O8, by `State.Live.exec_rdprgFix`; bits 25 to 22 of the word are 0011. -/
theorem fixedReadAnswersLastBank : Obligations.FixedReadAnswersLastBank := by
  intro s a d hs ha
  refine ⟨(pack_and_topMask 22 (by decide) (by decide)).2 ?_,
    decode_pack_read (i := .rdprgFix a) (decide_eq_true ha) rfl d, hs.exec_rdprgFix ha⟩
  have := d.isLt
  have := a.isLt
  change (0 * 2 ^ 25 + 0 * 2 ^ 24 + a.toNat * 2 ^ 8 + d.toNat) / 2 ^ 22 * 2 ^ 22 = 0x0C00000
  omega

/-- Settles O9, by `exec_rdprgLow`; bits 25 to 23 of the word are 000. -/
theorem readBelowWindowIsRefused : Obligations.ReadBelowWindowIsRefused := by
  intro s a d hl ha
  have hlow : a.toNat < 0x8000 := Nat.lt_succ_of_le ha
  refine ⟨(pack_and_topMask 23 (by decide) (by decide)).2 ?_,
    decode_pack_read (i := .rdprgLow a) (decide_eq_true hlow) rfl d, exec_rdprgLow hl hlow⟩
  have := d.isLt
  change (0 * 2 ^ 25 + 0 * 2 ^ 24 + a.toNat * 2 ^ 8 + d.toNat) / 2 ^ 23 * 2 ^ 23 = 0
  omega

/-- Settles O10, by `exec_wrprgSel`; bits 25 to 23 of the word are 011. -/
theorem bankSelectSetsPointer : Obligations.BankSelectSetsPointer := by
  intro s a v hs ha
  refine ⟨(pack_and_topMask 23 (by decide) (by decide)).2 ?_,
    decodeOfEncodeIsIdentity (.wrprgSel a v) (decide_eq_true ha), exec_wrprgSel v hs.loaded ha⟩
  have := v.isLt
  have := a.isLt
  change (0 * 2 ^ 25 + 1 * 2 ^ 24 + a.toNat * 2 ^ 8 + v.toNat) / 2 ^ 23 * 2 ^ 23 = 0x1800000
  omega

/-- Settles O11, by `exec_wrprgNop`; bits 25 to 23 of the word are 010. -/
theorem writeBelowWindowChangesNothing : Obligations.WriteBelowWindowChangesNothing := by
  intro s a v hl ha
  have hlow : a.toNat < 0x8000 := Nat.lt_succ_of_le ha
  refine ⟨(pack_and_topMask 23 (by decide) (by decide)).2 ?_,
    decodeOfEncodeIsIdentity (.wrprgNop a v) (decide_eq_true hlow), exec_wrprgNop v hl hlow⟩
  have := v.isLt
  change (0 * 2 ^ 25 + 1 * 2 ^ 24 + a.toNat * 2 ^ 8 + v.toNat) / 2 ^ 23 * 2 ^ 23 = 0x1000000
  omega

/-- Settles O12: a CPU write answers (`State.Live.write_twice`), its effect keeps the block live and so
MIRROR VERTICAL, and `exec_wrprg_congr` compares the values. -/
theorem highValueBitsAreIgnored : Obligations.HighValueBitsAreIgnored := by
  intro s a v hs
  simp only [decode_pack]
  obtain ⟨t, ht, -⟩ := hs.write_twice .cpu a v
  obtain ⟨-, -, heffect⟩ := exec_next ht
  exact ⟨t, ht, (heffect.live hs).mirrorVertical,
    fun v' hv => (exec_wrprg_congr hs.loaded a hv).trans ht⟩

/-- Settles O17: with the last bank selected BANKPTR is CLAMP, so both windows address one byte. -/
theorem windowsAgreeOnTheLastBank : Obligations.WindowsAgreeOnTheLastBank := by
  intro s k hs hlast hk
  have hsw : (BitVec.ofNat 16 (0x8000 + k)).toNat = 0x8000 + k := Nat.mod_eq_of_lt (by omega)
  have hfix : (BitVec.ofNat 16 (0xC000 + k)).toNat = 0xC000 + k := Nat.mod_eq_of_lt (by omega)
  obtain ⟨b, hb, hexec⟩ :=
    hs.exec_rdprgSw (a := BitVec.ofNat 16 (0x8000 + k)) (by omega) (by omega)
  obtain ⟨b', hb', hexec'⟩ := hs.exec_rdprgFix (a := BitVec.ofNat 16 (0xC000 + k)) (by omega)
  rw [hsw, Nat.add_sub_cancel_left, hs.bankptr_eq, hlast] at hb
  rw [hfix, Nat.add_sub_cancel_left, hb] at hb'
  cases hb'
  exact ⟨b, hexec, hexec'⟩

/-- Settles O18: the run ends live, with the same configuration, which alone gives the byte. -/
theorem fixedWindowSurvivesAnyRun : Obligations.FixedWindowSurvivesAnyRun := by
  intro s s' k a hs hno hrun ha
  obtain ⟨b, hb, hexec⟩ := hs.exec_rdprgFix ha
  obtain ⟨b', hb', hexec'⟩ := (hs.run hrun).exec_rdprgFix ha
  rw [run_noReload_config hno hrun, hb] at hb'
  cases hb'
  exact ⟨b, hexec, hexec'⟩

/-- Settles O37, part by part by what each effect leaves. -/
theorem frameOfEveryTransaction : Obligations.FrameOfEveryTransaction := by
  intro i s t h
  obtain ⟨-, -, heffect⟩ := exec_next h
  obtain ⟨hloaded, hconfig, hclamp, hmirror, hwrites, hpending, hsize⟩ := heffect.frame
  exact ⟨hloaded, hconfig, hclamp, hmirror, hwrites, hpending, hsize,
    heffect.bankptr_of_not_select, heffect.chr_of_not_store,
    fun hwf _ hj => heffect.chr_read_other hwf hj, heffect.responses_of_write,
    heffect.responses_of_read⟩

/-- Settles O43: LOAD starts the run at pointer 0 with no responses, the transactions run to the end
(`run_answers`), and `run_bankptr` and `run_response_sides` say what they leave. -/
theorem runEndsWithTheLastSelectedBank : Obligations.RunEndsWithTheLastSelectedBank := by
  intro s d ts hc hw hno hfirst
  have hlive := State.afterLoad_live (ts.map .txn) hc hw
  obtain ⟨t, hrun, hpending⟩ := run_answers hlive hno rfl
  refine ⟨t, (run_succ_next (step_load_good hfirst hc hw)).trans hrun, hlive.run hrun,
    run_noReload_config (noReload_txns ts) hrun, hpending, ?_, run_response_sides rfl hrun⟩
  rw [run_bankptr rfl hrun, pointerAfter]
  cases lastSelect ts <;> rfl

end Sys2Proof.Machine

/-! ## Proofs: CHR operations (41_chr_operations.md)

A PPU read answers the output multiplexer's byte (`exec_ppuRead`): the CHR byte at the address where
the enable of R50 is on (`outputMux_chr_on`), 0 where it is off (`outputMux_chr_off`).
A PPU write stores where the enable is on and keeps the state where it is off (`exec_ppuWrite_on`,
`exec_ppuWrite_off`). The statements follow from these, one mode of the enable at a time. -/

namespace Sys2Proof.Machine

/-! ### Rows of the PPU side (R77) -/

theorem ppu_window_row {rw : Access} {a : Addr} (d : Byte) {p : TWord}
    (hp : p.toNat = 0x2000000 + rw.bit.toNat * 2 ^ 24) (ha : a.toNat ≤ 0x1FFF) :
    pack .ppu rw a d &&& 0x3E00000 = p := by
  refine (pack_and_topMask 21 (by decide) (by decide)).2 ?_
  have hside : Side.ppu.bit.toNat = 1 := rfl
  have := d.isLt
  omega

/-- R77: the three rows outside the window split on the highest set bit of the address. -/
theorem ppu_outside_rows {rw : Access} {a : Addr} (d : Byte) {p q r : TWord}
    (hp : p.toNat = 0x2200000 + rw.bit.toNat * 2 ^ 24)
    (hq : q.toNat = 0x2400000 + rw.bit.toNat * 2 ^ 24)
    (hr : r.toNat = 0x2800000 + rw.bit.toNat * 2 ^ 24) (ha : 0x2000 ≤ a.toNat) :
    pack .ppu rw a d &&& 0x3E00000 = p ∨ pack .ppu rw a d &&& 0x3C00000 = q ∨
      pack .ppu rw a d &&& 0x3800000 = r := by
  rw [pack_and_topMask 21 (by decide) (by decide), pack_and_topMask 22 (by decide) (by decide),
    pack_and_topMask 23 (by decide) (by decide)]
  have hside : Side.ppu.bit.toNat = 1 := rfl
  have := d.isLt
  have := a.isLt
  omega

/-! ### PPU reads and writes by the enable (R50, R110 to R114) -/

theorem chrEn_read_rom {d : Descriptor} {a : Addr} (hrom : d.chrBanks ≠ 0) :
    chrEn d a .read = true ↔ a.toNat < 0x2000 := by
  rw [chrEn_read_iff]
  omega

theorem chrEn_read_ram {d : Descriptor} {a : Addr} (hram : d.chrBanks = 0) :
    chrEn d a .read = true ↔ a.toNat < min 0x2000 d.chrRamSize := by
  rw [chrEn_read_iff]
  omega

theorem chrEn_write_ram {d : Descriptor} {a : Addr} (hram : d.chrBanks = 0) :
    chrEn d a .write = true ↔ a.toNat < min 0x2000 d.chrRamSize := by
  rw [chrEn_write_iff]
  omega

theorem outputMux_chr_on {s : State} {a : Addr} (hen : chrEn s.config a .read = true) :
    outputMux .ppu .read a s = s.chr.read a.toNat := by
  rw [outputMux, if_pos hen, chrOff_window _ (chrEn_window hen)]

theorem outputMux_chr_off {s : State} {a : Addr} (hoff : ¬chrEn s.config a .read = true) :
    outputMux .ppu .read a s = some 0 := if_neg hoff

/-- R116: the multiplexer sees at most one byte of CHR, and none at 0x2000 or above. -/
theorem outputMux_setChr {s : State} {a : Addr} {c : Memory} (side : Side)
    (hbyte : a.toNat < 0x2000 → c.read a.toNat = s.chr.read a.toNat) :
    outputMux side .read a (s.setChr c) = outputMux side .read a s := by
  cases side with
  | cpu => rfl
  | ppu =>
    by_cases hen : chrEn s.config a .read = true
    · rw [outputMux_chr_on hen, outputMux_chr_on (s := s.setChr c) hen]
      exact hbyte (chrEn_window hen)
    · rw [outputMux_chr_off hen, outputMux_chr_off (s := s.setChr c) hen]

theorem exec_ppuRead {s : State} {a : Addr} {b : Byte} (hl : s.loaded = true) (d : Byte)
    (hb : outputMux .ppu .read a s = some b) :
    exec (decode (pack .ppu .read a d)) s = .next (s.respond .ppu b) := by
  rw [decode_pack]
  exact (exec_read_iff hl ..).2 ⟨b, hb, rfl⟩

theorem State.Live.outputMux_ppu {s : State} (hs : s.Live) (a : Addr) :
    ∃ b, outputMux .ppu .read a s = some b :=
  hs.outputMux_some nofun

theorem exec_ppuWrite_on {s : State} {a : Addr} (v : Byte) (hl : s.loaded = true)
    (hwf : s.chr.wf = true) (hin : a.toNat < s.chr.size) (hen : chrEn s.config a .write = true) :
    ∃ m, exec (decode (pack .ppu .write a v)) s = .next (s.setChr m) ∧ m.size = s.chr.size ∧
      m.read a.toNat = some v ∧ ∀ j, j ≠ a.toNat → m.read j = s.chr.read j := by
  obtain ⟨m, hstore, hsize, -, hread, hother⟩ := storeChr_inside v hwf hin
  refine ⟨m, ?_, hsize, hread, hother⟩
  rw [decode_pack, exec_wrchr hl, if_pos hen, hstore]

theorem exec_ppuWrite_off {s : State} {a : Addr} (v : Byte) (hl : s.loaded = true)
    (hoff : ¬chrEn s.config a .write = true) :
    exec (decode (pack .ppu .write a v)) s = .next s := by
  rw [decode_pack, exec_wrchr hl, if_neg hoff]

/-! ### The wrapped address on a 16-bit bus (R112) -/

/-- The address moves by the period's residue modulo 0x10000. -/
theorem addr_add_period_toNat {a : Addr} (n : Nat) (ha : a.toNat < 0x2000) :
    (a + BitVec.ofNat 16 (n * 8192)).toNat = a.toNat + n % 8 * 8192 := by
  rw [BitVec.toNat_add, BitVec.toNat_ofNat]
  omega

/-! ### The statements -/

/-- Settles O19: the multiplexer's byte in RAM mode inside the capacity, beyond it, and in ROM mode;
bits 25 to 21 of the word are 10000. -/
theorem chrWindowReadAnswersArrayByte : Obligations.ChrWindowReadAnswersArrayByte := by
  intro s a d hs ha
  have hwin : a.toNat < 0x2000 := Nat.lt_succ_of_le ha
  have hdecode : decode (pack .ppu .read a d) = .rdchrWin a :=
    decode_pack_read (i := .rdchrWin a) (decide_eq_true hwin) rfl d
  obtain ⟨b, hb⟩ := hs.outputMux_ppu a
  have hexec := exec_ppuRead hs.loaded d hb
  rw [hdecode] at hexec
  refine ⟨ppu_window_row d (by decide) ha, hdecode, b, hexec, fun hram hin => ?_,
    fun hram hout => ?_, fun hrom => ?_⟩
  · rwa [outputMux_chr_on ((chrEn_read_ram hram).2 (by omega))] at hb
  · rw [outputMux_chr_off (by rw [chrEn_read_ram hram]; omega)] at hb
    exact (Option.some.inj hb).symm
  · rw [outputMux_chr_on ((chrEn_read_rom hrom).2 hwin)] at hb
    rw [← chrOff_rom _ hrom, chrOff_window _ hwin]
    exact ⟨hb, hb⟩

/-- Settles O21, by `exec_ppuWrite_on` and `exec_ppuWrite_off`; bits 25 to 21 of the word are
11000. -/
theorem chrWindowWriteStoresInRamOnly : Obligations.ChrWindowWriteStoresInRamOnly := by
  intro s a v hs ha
  have hwin : a.toNat < 0x2000 := Nat.lt_succ_of_le ha
  have hdecode : decode (pack .ppu .write a v) = .wrchrWin a v :=
    decodeOfEncodeIsIdentity (.wrchrWin a v) (decide_eq_true hwin)
  have hen : chrEn s.config a .write = true ↔
      s.config.chrBanks = 0 ∧ a.toNat < s.config.chrRamSize :=
    (chrEn_write_iff _ a).trans (and_iff_right hwin)
  refine ⟨ppu_window_row v (by decide) ha, hdecode, fun hin => ?_, fun hout => ?_⟩
  · rw [← hdecode]
    exact exec_ppuWrite_on v hs.loaded hs.chrWf (hs.addr_lt_chr (hen.2 hin)) (hen.2 hin)
  · rw [← hdecode]
    exact exec_ppuWrite_off v hs.loaded (mt hen.1 hout)

/-- Settles O24: the enable of R50 per mode for the response, `chrOff_rom` for the wrap,
`addr_add_period_toNat` for the wrapped address. -/
theorem chrReadLaws : Obligations.ChrReadLaws := by
  intro s a hs
  obtain ⟨b, hb⟩ := hs.outputMux_ppu a
  refine ⟨⟨b, exec_ppuRead hs.loaded 0 hb, fun hrom hwin => ?_, fun hram hin => ?_,
    fun hrom hout => ?_, fun hram hout => ?_⟩, fun hrom n => ?_, fun _ hwin => ⟨fun hres => ?_,
    fun hres => BitVec.eq_of_toNat_eq ?_⟩⟩
  · rwa [outputMux_chr_on ((chrEn_read_rom hrom).2 hwin), hs.romFixed hrom] at hb
  · rwa [outputMux_chr_on ((chrEn_read_ram hram).2 hin)] at hb
  · rw [outputMux_chr_off (mt (chrEn_read_rom hrom).1 (Nat.not_lt.2 hout))] at hb
    exact (Option.some.inj hb).symm
  · rw [outputMux_chr_off (mt (chrEn_read_ram hram).1 (Nat.not_lt.2 hout))] at hb
    exact (Option.some.inj hb).symm
  · rw [chrOff_rom _ hrom, chrOff_rom _ hrom, Nat.add_mod_right]
  · rw [addr_add_period_toNat _ hwin]
    omega
  · rw [addr_add_period_toNat _ hwin, hres, Nat.zero_mul, Nat.add_zero]

/-- Settles O25: with the enable on the store is read back and read nowhere else; with it off the
write is dropped, and in RAM mode the read there is off as well. -/
theorem chrWriteLaws : Obligations.ChrWriteLaws := by
  intro s a v hs
  by_cases hen : chrEn s.config a .write = true
  · obtain ⟨hwin, hram, hin⟩ := (chrEn_write_iff _ a).1 hen
    have hread : chrEn s.config a .read = true := (chrEn_read_iff _ a).2 ⟨hwin, .inr hin⟩
    obtain ⟨m, hexec, hsize, hbyte, hother⟩ :=
      exec_ppuWrite_on v hs.loaded hs.chrWf (hs.addr_lt_chr hen) hen
    refine ⟨s.setChr m, hexec, rfl, rfl, hsize, fun hrom => absurd hram hrom,
      fun _ _ => ⟨?_, fun a' hne => ?_⟩, fun _ hout => by omega⟩
    · exact exec_ppuRead (s := s.setChr m) hs.loaded 0
        ((outputMux_chr_on (s := s.setChr m) hread).trans hbyte)
    · obtain ⟨b, hb⟩ := hs.outputMux_ppu a'
      refine ⟨b, exec_ppuRead hs.loaded 0 hb, exec_ppuRead (s := s.setChr m) hs.loaded 0 ?_⟩
      exact (outputMux_setChr _ fun _ => hother _ (mt BitVec.eq_of_toNat_eq hne)).trans hb
  · refine ⟨s, exec_ppuWrite_off v hs.loaded hen, rfl, rfl, rfl,
      fun hrom => ⟨hs.romFixed hrom, rfl⟩,
      fun hram hin => absurd ((chrEn_write_ram hram).2 hin) hen, fun hram hout => ⟨rfl, ?_⟩⟩
    exact exec_ppuRead hs.loaded 0
      (outputMux_chr_off (mt (chrEn_read_ram hram).1 (Nat.not_lt.2 hout)))

/-- Settles O26: a read does not see the bytes replaced (`outputMux_setChr`), a CPU write leaves CHR
alone, and a store inside the window gives both arrays the same byte. -/
theorem unreachableChrBytesAreInert : Obligations.UnreachableChrBytesAreInert := by
  intro s t c i hs hwf hsize hlow h
  obtain ⟨hl, hw, -⟩ := exec_next h
  have hl' : (s.setChr c).loaded = true := hl
  obtain ⟨side, rw, a, d, rfl⟩ : ∃ side rw a d, i = decode (pack side rw a d) :=
    ⟨_, _, _, _, (decodeOfEncodeIsIdentity i hw).symm⟩
  cases rw with
  | read =>
    rw [decode_pack] at h ⊢
    obtain ⟨b, hb, rfl⟩ := (exec_read_iff hl ..).1 h
    exact ⟨c, (exec_read_iff hl' ..).2 ⟨b, (outputMux_setChr side (hlow _)).trans hb, rfl⟩,
      hlow, fun _ _ => ⟨rfl, rfl⟩⟩
  | write =>
    cases side with
    | cpu =>
      rw [decode_pack] at h ⊢
      by_cases ha : 0x8000 ≤ a.toNat
      · cases ((exec_wrprg hl ..).trans (if_pos ha)).symm.trans h
        exact ⟨c, (exec_wrprg hl' ..).trans (if_pos ha), hlow, fun _ _ => ⟨rfl, rfl⟩⟩
      · cases ((exec_wrprg hl ..).trans (if_neg ha)).symm.trans h
        exact ⟨c, (exec_wrprg hl' ..).trans (if_neg ha), hlow, fun _ _ => ⟨rfl, rfl⟩⟩
    | ppu =>
      by_cases hen : chrEn s.config a .write = true
      · have hin := hs.addr_lt_chr hen
        have hwin := chrEn_window hen
        obtain ⟨m, hm, -, hbyte, hother⟩ := exec_ppuWrite_on d hl hs.chrWf hin hen
        obtain ⟨n, hn, -, hbyte', hother'⟩ :=
          exec_ppuWrite_on (s := s.setChr c) d hl' hwf (hin.trans_eq hsize.symm) hen
        cases hm.symm.trans h
        refine ⟨n, hn, fun j hj => ?_, fun j hj => ⟨hother' j (by omega), hother j (by omega)⟩⟩
        by_cases hja : j = a.toNat
        · rw [hja, hbyte']
          exact hbyte.symm
        · exact (hother' j hja).trans ((hlow j hj).trans (hother j hja).symm)
      · cases (exec_ppuWrite_off d hl hen).symm.trans h
        exact ⟨c, exec_ppuWrite_off d hl' hen, hlow, fun _ _ => ⟨rfl, rfl⟩⟩

/-- Settles O20: the enable is off outside the window; the word is in the row of its highest set
address bit. -/
theorem chrReadOutsideWindowAnswersZero : Obligations.ChrReadOutsideWindowAnswersZero := by
  intro s a d hl ha
  have hdecode : decode (pack .ppu .read a d) = .rdchrOut a :=
    decode_pack_read (i := .rdchrOut a) (decide_eq_true ha) rfl d
  have hexec := exec_ppuRead hl d
    (outputMux_chr_off fun hen => absurd (chrEn_window hen) (Nat.not_lt.2 ha))
  rw [hdecode] at hexec
  exact ⟨ppu_outside_rows d (by decide) (by decide) (by decide) ha, hdecode, hexec⟩

/-- Settles O22: the enable is off outside the window; the word is in the row of its highest set
address bit. -/
theorem chrWriteOutsideWindowChangesNothing : Obligations.ChrWriteOutsideWindowChangesNothing := by
  intro s a v hl ha
  have hdecode : decode (pack .ppu .write a v) = .wrchrOut a v :=
    decodeOfEncodeIsIdentity (.wrchrOut a v) (decide_eq_true ha)
  have hexec := exec_ppuWrite_off v hl fun hen => absurd (chrEn_window hen) (Nat.not_lt.2 ha)
  rw [hdecode] at hexec
  exact ⟨ppu_outside_rows v (by decide) (by decide) (by decide) ha, hdecode, hexec⟩

end Sys2Proof.Machine

/-! ## Proofs: exceptions (60_exceptions.md)

Which stops a step can meet (R130): before LOAD and on a read below the window a transaction is
refused, every other transaction of a live block answers, and LOAD constructs a state or is refused.
Then each class rule, on the fields of its word, is the operation of R133 with its tests in order; the
statement about all words chooses by SIDE and RW. -/

namespace Sys2Proof.Machine

/-! ### Refusals and faults (R130, R134, R152) -/

/-- R152: before LOAD every transaction is refused. -/
theorem exec_beforeLoad (i : Instr) {s : State} (hl : s.loaded = false) :
    exec i s = .refused .beforeLoad := by
  cases i <;> exact transact_beforeLoad _ hl

/-- R135: LOAD constructs a state or is refused. -/
theorem load_ne_fault (d : Descriptor) (s : State) (f : Fault) : load d s ≠ .fault f := by
  rw [load]
  split
  · split <;> nofun
  · nofun

/-- R130, R134: on a live block a transaction answers a next state or is the refused read. -/
theorem State.Live.exec_ne_fault {s : State} (hs : s.Live) (t : TWord) (f : Fault) :
    exec (decode t) s ≠ .fault f := by
  by_cases hlow : ∃ a, decode t = .rdprgLow a
  · obtain ⟨a, ha⟩ := hlow
    have hw := decode_wellFormed t
    rw [ha] at hw
    rw [ha, exec_rdprgLow hs.loaded (of_decide_eq_true hw)]
    nofun
  · obtain ⟨u, hu⟩ := hs.exec_answers (not_exists.1 hlow)
    rw [hu]
    nofun

theorem step_ne_fault_of_live {s : State} (hs : s.Live) (f : Fault) : step s ≠ .fault f := by
  match hp : s.pending with
  | [] =>
    rw [step_idle hp]
    nofun
  | .load d :: rest =>
    rw [step_load hp]
    exact load_ne_fault d _ f
  | .txn t :: rest =>
    rw [step_txn hp]
    exact (hs.setPending rest).exec_ne_fault t f

/-! ### The class rules and the order of tests (R133) -/

/-- RDPRG: the window test first, then which window. -/
theorem exec_eq_readPrg {s : State} (hl : s.loaded = true) (a : Addr) (d : Byte) :
    exec (classify .cpu .read a d) s = readPrg a s := by
  rw [exec_rdprg hl, readPrg]
  by_cases hlow : a.toNat < 0x8000
  · rw [if_neg (Nat.not_le.2 hlow), if_pos hlow]
  · rw [if_pos (Nat.not_lt.1 hlow), if_neg hlow]
    by_cases hsw : a.toNat < 0xC000
    · rw [if_pos hsw, prgOff_switchable _ _ hsw]
    · rw [if_neg hsw, prgOff_fixed _ _ (Nat.not_lt.1 hsw)]

/-- WRPRG: below the window a no-op, else the select; R93's pointer is written out in `writePrg`. -/
theorem exec_eq_writePrg {s : State} (hl : s.loaded = true) (a : Addr) (v : Byte) :
    exec (classify .cpu .write a v) s = writePrg a v s := by
  rw [exec_wrprg hl, writePrg]
  by_cases hlow : a.toNat < 0x8000
  · rw [if_neg (Nat.not_le.2 hlow), if_pos hlow]
  · rw [if_pos (Nat.not_lt.1 hlow), if_neg hlow]
    rfl

/-- RDCHR: outside the window and beyond the RAM's capacity the enable is off, and both answer 0. -/
theorem exec_eq_readChr {s : State} (hl : s.loaded = true) (a : Addr) (d : Byte) :
    exec (classify .ppu .read a d) s = readChr a s := by
  rw [exec_rdchr hl, readChr]
  by_cases hout : 0x2000 ≤ a.toNat
  · rw [if_pos hout, if_neg fun hen => absurd (chrEn_window hen) (Nat.not_lt.2 hout)]
  · have hwin : a.toNat < 0x2000 := Nat.not_le.1 hout
    rw [if_neg hout]
    by_cases hram : s.config.chrBanks = 0
    · rw [if_pos hram, chrOff_ram _ hram]
      simp only [chrEn_read_ram hram, lt_min_iff, hwin, true_and]
    · rw [if_neg hram, if_pos ((chrEn_read_rom hram).2 hwin)]

/-- WRCHR: the store is behind the enable, and each test that drops the write turns the enable off. -/
theorem exec_eq_writeChr {s : State} (hl : s.loaded = true) (a : Addr) (v : Byte) :
    exec (classify .ppu .write a v) s = writeChr a v s := by
  rw [exec_wrchr hl, writeChr]
  by_cases hen : chrEn s.config a .write = true
  · obtain ⟨hwin, hram, hin⟩ := (chrEn_write_iff _ a).1 hen
    rw [if_pos hen, if_neg (not_not.2 hram), if_neg (Nat.not_le.2 hwin), if_neg (Nat.not_le.2 hin)]
  · rw [if_neg hen]
    split_ifs with hrom hout hcap
    · rfl
    · rfl
    · rfl
    · exact absurd ((chrEn_write_iff _ a).2
        ⟨Nat.not_le.1 hout, not_not.1 hrom, Nat.not_le.1 hcap⟩) hen

/-! ### The statements -/

/-- Settles O34: `step_ne_fault_of_live`, and `State.Live.exec_answers` at the canonical word of the
instruction. -/
theorem everyTransactionHasADefinedResult : Obligations.EveryTransactionHasADefinedResult := by
  intro s hs
  refine ⟨step_ne_fault_of_live hs, fun i hw hlow => ?_⟩
  have hdecode : decode (encode i) = i := decodeOfEncodeIsIdentity i hw
  rw [← hdecode] at hlow ⊢
  exact hs.exec_answers hlow

/-- Settles O36: before LOAD both sides are the refusal of R152; after it, `exec_eq_readPrg`,
`exec_eq_writePrg`, `exec_eq_readChr` and `exec_eq_writeChr` at the word's fields. -/
theorem classRulesAgreeWithTestOrder : Obligations.ClassRulesAgreeWithTestOrder := by
  intro t s
  unfold decode busCall
  cases hl : s.loaded with
  | false => exact exec_beforeLoad _ hl
  | true =>
    cases sideField t with
    | cpu =>
      cases rwField t with
      | read => exact exec_eq_readPrg hl ..
      | write => exact exec_eq_writePrg hl ..
    | ppu =>
      cases rwField t with
      | read => exact exec_eq_readChr hl ..
      | write => exact exec_eq_writeChr hl ..

end Sys2Proof.Machine

/-! ## Proofs: reset and hazards (70_reset_and_hazards.md)

LOAD first: its tests, its refusal, and that it sees of the state only the events that follow. Then
which run of transactions is refused. Then the platform's moves (log 28): the moves up to LOAD leave
nothing behind but what LOAD makes (`Platform.afterLoad`), and after it each statement is an
induction over the moves. -/

namespace Sys2Proof.Machine

/-! ### LOAD (R135, R150 to R152) -/

/-- R150: the test of the CHR length is one test per mode. -/
theorem Descriptor.wellFormed_iff (d : Descriptor) :
    d.wellFormed = true ↔ d.prgBanks ≠ 0 ∧ d.prgRom.size = d.prgBanks * 16384 ∧
      (0 < d.chrBanks → d.chrInit.size = d.chrBanks * 8192) ∧
      (d.chrBanks = 0 → d.chrInit.size = d.chrRamSize) := by
  simp only [Descriptor.wellFormed, Descriptor.chrLength, Bool.and_eq_true, bne_iff_ne, beq_iff_eq,
    and_assoc]
  by_cases hram : d.chrBanks = 0
  · simp [hram]
  · simp [hram, Nat.pos_of_ne_zero hram]

/-- R135: LOAD of a descriptor that fails a test. -/
theorem step_load_malformed {s : State} {d : Descriptor} {rest : List Event}
    (hp : s.pending = .load d :: rest) (hc : d.canonical = true) (hw : ¬d.wellFormed = true) :
    step s = .refused .malformedDescriptor := by
  rw [step_load hp, load, if_pos hc, if_neg hw]

/-- R151: of the state it finds, LOAD sees the events that follow and nothing else. -/
theorem load_congr (d : Descriptor) {s s' : State} (h : s.pending = s'.pending) :
    load d s = load d s' := by
  rw [load, load, h]

/-- Settles O27: `Descriptor.wellFormed_iff` says that the tests are the model's; then
`step_load_good`, or `step_load_malformed` where one of the four fails. -/
theorem loadChecksAndConstructs : Obligations.LoadChecksAndConstructs := by
  intro s d rest hc hp
  refine ⟨fun htests => step_load_good hp hc (d.wellFormed_iff.2 htests),
    fun hfails => step_load_malformed hp hc fun hw => ?_⟩
  obtain ⟨hbank, hprg, hrom, hram⟩ := d.wellFormed_iff.1 hw
  rcases hfails with h | h | ⟨hmode, h⟩ | ⟨hmode, h⟩
  · exact hbank h
  · exact h hprg
  · exact h (hrom hmode)
  · exact h (hram hmode)

/-- Settles O28, by `exec_beforeLoad` for the instruction and for the word of a step. -/
theorem transactionBeforeLoadIsRefused : Obligations.TransactionBeforeLoadIsRefused := by
  intro s hl
  exact ⟨fun i => exec_beforeLoad i hl, fun t rest hp => (step_txn hp).trans (exec_beforeLoad _ hl)⟩

/-- Settles O29: both steps are LOAD with the same events to follow. -/
theorem loadForgetsEarlierState : Obligations.LoadForgetsEarlierState := by
  intro s s' d rest hp hp'
  rw [step_load hp, step_load hp']
  exact load_congr d rfl

/-! ### Runs with a refusal (R134, R163) -/

theorem coreRun_succ_refused (M : Host.Core) {k : Nat} {s : M.State} {r : M.Refusal}
    (h : M.step s = .refused r) : M.run (k + 1) s = .refused r := by
  simp only [Host.Core.run, h]

theorem run_succ_refused {k : Nat} {s : State} {r : Refusal} (h : step s = .refused r) :
    run (k + 1) s = .refused r := coreRun_succ_refused core h

/-- R134: a word that is a CPU read below the window. -/
theorem exec_decode_rdprgLow {s : State} {x : TWord} {a : Addr} (hl : s.loaded = true)
    (hx : decode x = .rdprgLow a) : exec (decode x) s = .refused .readBelowWindow := by
  have hw := decode_wellFormed x
  rw [hx] at hw ⊢
  exact exec_rdprgLow hl (of_decide_eq_true hw)

/-- R134: a CPU read below the window anywhere among the transactions stops the run there. -/
theorem run_refuses {s : State} {ts : List TWord} (hs : s.Live) (hno : ¬NoRefusal ts)
    (hp : s.pending = ts.map .txn) : run ts.length s = .refused .readBelowWindow := by
  induction ts generalizing s with
  | nil => exact absurd (List.forall_mem_nil _) hno
  | cons x ts ih =>
    have hlive := hs.setPending (ts.map .txn)
    by_cases hlow : ∃ a, decode x = .rdprgLow a
    · obtain ⟨a, hx⟩ := hlow
      exact run_succ_refused ((step_txn hp).trans (exec_decode_rdprgLow hlive.loaded hx))
    · have hx := not_exists.1 hlow
      obtain ⟨t, ht⟩ := hlive.exec_answers hx
      obtain ⟨-, -, heffect⟩ := exec_next ht
      have hno' : ¬NoRefusal ts := fun hts => hno (List.forall_mem_cons.2 ⟨hx, hts⟩)
      exact (run_txn_next hp ht).trans (ih (heffect.live hlive) hno' (exec_pending ht))

/-- Settles O46: under `NoRefusal` the run answers (`run_answers`), without it the run is refused
(`run_refuses`), and no run does both. -/
theorem noRefusalIsThatNoStepRefuses : Obligations.NoRefusalIsThatNoStepRefuses := by
  intro s ts hs
  have hlive := hs.setPending (ts.map .txn)
  refine ⟨⟨fun hno => ?_, fun ⟨t, ht⟩ => ?_⟩, fun hno => run_refuses hlive hno rfl⟩
  · obtain ⟨t, ht, -⟩ := run_answers hlive hno rfl
    exact ⟨t, ht⟩
  · by_contra hno
    cases ht.symm.trans (run_refuses hlive hno rfl)

/-! ### The moves up to LOAD (R151, R158, log 28) -/

/-- The platform straight after LOAD: the block as LOAD constructs it, no call in progress, and the
register driven once. -/
def Platform.afterLoad (d : Descriptor) : Platform where
  block := State.afterLoad d []
  busy := false
  register := some Config.mirrorCodeVertical

theorem Platform.move_load_eq {p : Platform} {d : Descriptor} (hb : p.busy = false)
    (hc : d.canonical = true) (hw : d.wellFormed = true) :
    p.move (.load d) = some (Platform.afterLoad d) := by
  have hstep : step (p.block.setPending [.load d]) = .next (State.afterLoad d []) :=
    step_load_good rfl hc hw
  simp only [Platform.move, Platform.take_next hstep, hb]
  rfl

/-- R151: where LOAD can be followed, it leaves nothing of the platform before it. -/
theorem Platform.move_load_some {p q : Platform} {d : Descriptor} (h : p.move (.load d) = some q) :
    q = Platform.afterLoad d := by
  rcases Platform.move_some h with ⟨d', s, hm, -, hstep, rfl⟩ | ⟨_, _, _, hm, -⟩ | ⟨hm, -⟩ |
    ⟨_, _, hm, -⟩ | ⟨_, _, hm, -⟩ | ⟨_, hm, -⟩
  case inl =>
    cases hm
    obtain ⟨-, -, rfl⟩ := step_load_next rfl hstep
    rfl
  all_goals cases hm

/-- Where LOAD is the first event handed over, the events after it are those of the moves after
it. -/
theorem handedOver_sinceLoad {h : List HostMove} {d : Descriptor} {es : List Event}
    (hh : handedOver h = .load d :: es) : handedOver (sinceLoad h) = es := by
  induction h with
  | nil => cases hh
  | cons m h ih =>
    cases m with
    | load => cases hh; rfl
    | call => cases hh
    | ret | writePrgRom | writeChr | setMirroring => exact ih hh

/-- Where LOAD is the first event handed over and the moves can be followed, they end as those after
LOAD do. -/
theorem Platform.follow_sinceLoad {h : List HostMove} {d : Descriptor} {es : List Event}
    {p q : Platform} (hh : handedOver h = .load d :: es) (hf : p.follow h = some q) :
    (Platform.afterLoad d).follow (sinceLoad h) = some q := by
  induction h generalizing p with
  | nil => cases hh
  | cons m h ih =>
    obtain ⟨r, hmove, hrest⟩ := Platform.follow_cons.1 hf
    cases m with
    | load =>
      cases hh
      exact Platform.move_load_some hmove ▸ hrest
    | call => cases hh
    | ret | writePrgRom | writeChr | setMirroring => exact ih hh hrest

/-- R158: moves one at a time with LOAD of a good descriptor first can be followed up to LOAD,
whatever else they write before it. -/
theorem Platform.follow_to_load {h : List HostMove} {d : Descriptor} {es : List Event}
    {p : Platform} (hb : p.busy = false) (hc : d.canonical = true) (hw : d.wellFormed = true)
    (hh : handedOver h = .load d :: es) (hserial : oneAtATime false h = true) :
    p.follow h = (Platform.afterLoad d).follow (sinceLoad h) ∧
      oneAtATime false (sinceLoad h) = true := by
  induction h generalizing p with
  | nil => cases hh
  | cons m h ih =>
    cases m with
    | load =>
      cases hh
      refine ⟨?_, hserial⟩
      rw [Platform.follow, Platform.move_load_eq hb hc hw]
      rfl
    | call => cases hh
    | ret => cases hserial
    | writePrgRom i v =>
      exact ih (p := { p with block := p.block.setPrgRom (p.block.config.prgRom.poke i v) })
        hb hh hserial
    | writeChr i v =>
      exact ih (p := { p with block := p.block.setChr (p.block.chr.poke i v) }) hb hh hserial
    | setMirroring code => exact ih (p := { p with register := some code }) hb hh hserial

/-! ### The moves after LOAD, under the premises (R155, R158, R163) -/

theorem outputMux_setPending (side : Side) (rw : Access) (a : Addr) (s : State) (es : List Event) :
    outputMux side rw a (s.setPending es) = outputMux side rw a s := by
  cases side <;> cases rw <;> rfl

theorem storeChr_of_write {s : State} {n : Nat} {v : Byte} {m : Memory}
    (h : s.chr.write n v = some m) : storeChr n v s = .next (s.setChr m) := by
  simp only [storeChr, h]

/-- R33: the events still to come are no input of a transaction. -/
theorem exec_setPending {i : Instr} {s t : State} (es : List Event) (h : exec i s = .next t) :
    exec i (s.setPending es) = .next (t.setPending es) := by
  obtain ⟨hl, hw, -⟩ := exec_next h
  have hl' : (s.setPending es).loaded = true := hl
  rw [← classify_fields hw] at h ⊢
  cases hrw : i.rw with
  | read =>
    rw [hrw] at h
    obtain ⟨b, hb, rfl⟩ := (exec_read_iff hl ..).1 h
    exact (exec_read_iff hl' ..).2 ⟨b, (outputMux_setPending ..).trans hb, rfl⟩
  | write =>
    rw [hrw] at h
    cases hside : i.side with
    | cpu =>
      rw [hside] at h
      by_cases ha : 0x8000 ≤ i.addr.toNat
      · cases ((exec_wrprg hl ..).trans (if_pos ha)).symm.trans h
        exact (exec_wrprg hl' ..).trans (if_pos ha)
      · cases ((exec_wrprg hl ..).trans (if_neg ha)).symm.trans h
        exact (exec_wrprg hl' ..).trans (if_neg ha)
    | ppu =>
      rw [hside] at h
      by_cases hen : chrEn s.config i.addr .write = true
      · obtain ⟨m, hm, rfl⟩ :=
          storeChr_next (((exec_wrchr hl ..).trans (if_pos hen)).symm.trans h)
        exact ((exec_wrchr hl' ..).trans (if_pos hen)).trans (storeChr_of_write hm)
      · cases ((exec_wrchr hl ..).trans (if_neg hen)).symm.trans h
        exact (exec_wrchr hl' ..).trans (if_neg hen)

theorem Platform.move_call_eq {p : Platform} {t : TWord} {inputs : Byte} {s : State}
    (hb : p.busy = false)
    (h : exec (decode (seen t inputs)) (p.block.setPending []) = .next s) :
    p.move (.call t inputs) = some { p with block := s, busy := true } := by
  have hstep : step (p.block.setPending [.txn (seen t inputs)]) = .next s := h
  simp only [Platform.move, Platform.take_next hstep, hb]
  rfl

/-- R155, R163: under the premises the moves after LOAD can be followed, and the block ends as the
run of the transactions they hand over does. -/
theorem Platform.follow_is_run {h : List HostMove} {ts : List TWord} {p : Platform}
    (hs : p.block.Live) (hpending : p.block.pending = []) (hh : handedOver h = ts.map .txn)
    (hno : NoRefusal ts) (hserial : oneAtATime p.busy h = true)
    (hprivate : ∀ m ∈ h, ∀ i v, m ≠ .writePrgRom i v ∧ m ≠ .writeChr i v) :
    ∃ q, p.follow h = some q ∧ q.busy = false ∧
      run ts.length (p.block.setPending (ts.map .txn)) = .next q.block := by
  induction h generalizing p ts with
  | nil =>
    cases List.map_eq_nil_iff.1 hh.symm
    refine ⟨p, rfl, by simpa [oneAtATime] using hserial, ?_⟩
    rw [List.map_nil, ← hpending]
    rfl
  | cons m h ih =>
    obtain ⟨hm, hprivate'⟩ := List.forall_mem_cons.1 hprivate
    cases m with
    | load d => cases ts <;> cases hh
    | call t inputs =>
      cases ts with
      | nil => cases hh
      | cons x ts =>
        obtain ⟨hx, hrest⟩ := List.cons.inj hh
        cases hx
        obtain ⟨hlow, hno'⟩ := List.forall_mem_cons.1 hno
        obtain ⟨hidle, hserial'⟩ := Bool.and_eq_true_iff.1 hserial
        have hb : p.busy = false := by simpa using hidle
        obtain ⟨s, hexec⟩ := (hs.setPending []).exec_answers hlow
        obtain ⟨-, -, heffect⟩ := exec_next hexec
        obtain ⟨q, hq, hbusy, hrun⟩ := ih (p := { p with block := s, busy := true })
          (heffect.live (hs.setPending [])) (exec_pending hexec) hrest hno' hserial' hprivate'
        have hexec' : exec (decode (seen t inputs)) (p.block.setPending (ts.map .txn)) =
            .next (s.setPending (ts.map .txn)) :=
          exec_setPending (s := p.block.setPending []) _ hexec
        exact ⟨q, Platform.follow_cons.2 ⟨_, Platform.move_call_eq hb hexec, hq⟩, hbusy,
          (run_txn_next (s := p.block.setPending _) rfl hexec').trans hrun⟩
    | ret =>
      obtain ⟨hb, hserial'⟩ := Bool.and_eq_true_iff.1 hserial
      obtain ⟨q, hq, hend⟩ :=
        ih (p := { p with busy := false }) hs hpending hh hno hserial' hprivate'
      exact ⟨q, Platform.follow_cons.2 ⟨_, if_pos hb, hq⟩, hend⟩
    | writePrgRom i v => exact absurd rfl (hm i v).1
    | writeChr i v => exact absurd rfl (hm i v).2
    | setMirroring code =>
      exact ih (p := { p with register := some code }) hs hpending hh hno hserial hprivate'

/-- Settles O47: up to LOAD by `Platform.follow_to_load`, after it by `Platform.follow_is_run`; the
run begins with the same LOAD. -/
theorem movesUnderThePremisesAreARun : Obligations.MovesUnderThePremisesAreARun := by
  intro p h d ts hb hc hw hfirst hno hserial hprivate
  obtain ⟨hfollow, hserial'⟩ := Platform.follow_to_load hb hc hw hfirst hserial
  obtain ⟨q, hq, hbusy, hrun⟩ := Platform.follow_is_run (p := Platform.afterLoad d)
    (State.afterLoad_live [] hc hw) rfl (handedOver_sinceLoad hfirst) hno hserial' hprivate
  have hload : step (p.block.setPending (handedOver h)) = .next (State.afterLoad d (ts.map .txn)) :=
    step_load_good hfirst hc hw
  exact ⟨q, hfollow.trans hq, hbusy, (run_succ_next hload).trans hrun⟩

/-! ### What the moves after LOAD leave (R161, R163) -/

/-- The transaction of an event, if it is one. -/
def Event.word : Event → Option TWord
  | .load _ => none
  | .txn t => some t

theorem filterMap_word_txns (ts : List TWord) : (ts.map .txn).filterMap Event.word = ts := by
  rw [List.filterMap_map]
  exact List.filterMap_some

theorem seen_of_valueAsSeen {t : TWord} {inputs : Byte}
    (h : sideField t = .cpu → rwField t = .write → inputs = dataField t) : seen t inputs = t := by
  by_cases hwrite : sideField t = .cpu ∧ rwField t = .write
  · rw [h hwrite.1 hwrite.2, seen_data]
  · exact if_neg hwrite

/-- R161: where the data inputs carry the written values, the words handed over are those issued. -/
theorem filterMap_word_handedOver {h : List HostMove} (hseen : ValueAsSeen h) :
    (handedOver h).filterMap Event.word = issued h := by
  induction h with
  | nil => rfl
  | cons m h ih =>
    have hrest := ih fun t inputs hm => hseen t inputs (List.mem_cons_of_mem _ hm)
    cases m with
    | call t inputs =>
      have ht := seen_of_valueAsSeen (hseen t inputs List.mem_cons_self)
      rw [handedOver, issued, ht, ← hrest]
      rfl
    | load | ret | writePrgRom | writeChr | setMirroring => exact hrest

/-- A call's effect on the block is that of the transaction the block sees. -/
theorem Platform.move_call_some {p q : Platform} {t : TWord} {inputs : Byte}
    (h : p.move (.call t inputs) = some q) :
    exec (decode (seen t inputs)) (p.block.setPending []) = .next q.block := by
  rcases Platform.move_some h with ⟨_, _, hm, -⟩ | ⟨t', inputs', s, hm, -, hstep, rfl⟩ | ⟨hm, -⟩ |
    ⟨_, _, hm, -⟩ | ⟨_, _, hm, -⟩ | ⟨_, hm, -⟩
  case inr.inl =>
    cases hm
    exact hstep
  all_goals cases hm

/-- A move that hands nothing over leaves the bank pointer and the number of banks, a foreign write
of an array included. -/
theorem Platform.move_silent {m : HostMove} {p q : Platform} (hm : handedOver [m] = [])
    (h : p.move m = some q) :
    q.block.bankptr = p.block.bankptr ∧ q.block.config.prgBanks = p.block.config.prgBanks := by
  rcases Platform.move_some h with ⟨d, s, rfl, -⟩ | ⟨t, inputs, s, rfl, -⟩ | ⟨-, -, rfl⟩ |
    ⟨i, v, -, rfl⟩ | ⟨i, v, -, rfl⟩ | ⟨code, -, rfl⟩
  · cases hm
  · cases hm
  all_goals exact ⟨rfl, rfl⟩

/-- R98: the transactions handed over move BANKPTR as they do in a run, whatever else the platform
does between them. -/
theorem Platform.follow_bankptr {h : List HostMove} {ts : List TWord} {p q : Platform}
    (hh : handedOver h = ts.map .txn) (hf : p.follow h = some q) :
    q.block.bankptr = pointerAfter p.block.config.prgBanks p.block.bankptr ts := by
  induction h generalizing p ts with
  | nil =>
    cases List.map_eq_nil_iff.1 hh.symm
    cases hf
    rfl
  | cons m h ih =>
    obtain ⟨r, hmove, hrest⟩ := Platform.follow_cons.1 hf
    cases m with
    | load d => cases ts <;> cases hh
    | call t inputs =>
      cases ts with
      | nil => cases hh
      | cons x ts =>
        obtain ⟨hx, hh'⟩ := List.cons.inj hh
        cases hx
        have hexec := Platform.move_call_some hmove
        obtain ⟨-, -, heffect⟩ := exec_next hexec
        obtain ⟨-, hconfig, -⟩ := heffect.frame
        rw [ih hh' hrest, exec_bankptr hexec, hconfig, ← pointerAfter_cons]
        rfl
    | ret | writePrgRom | writeChr | setMirroring =>
      obtain ⟨hptr, hbanks⟩ := Platform.move_silent rfl hmove
      rw [ih hh hrest, hptr, hbanks]

/-- Settles O48: the words handed over are those issued (`filterMap_word_handedOver`), and
`Platform.follow_bankptr` says what they make of the pointer 0 that LOAD sets. -/
theorem valueAsSeenGivesTheIssuedBank : Obligations.ValueAsSeenGivesTheIssuedBank := by
  intro p q h d ts hfirst hseen hf
  have hts : ts = issued h := by
    rw [← filterMap_word_handedOver hseen, hfirst]
    exact (filterMap_word_txns ts).symm
  refine ⟨hts, ?_⟩
  rw [Platform.follow_bankptr (handedOver_sinceLoad hfirst) (Platform.follow_sinceLoad hfirst hf),
    ← hts, pointerAfter]
  cases lastSelect ts <;> rfl

/-! ### The mirroring register (R27, R140, R163) -/

/-- Every LOAD among the moves is handed over. -/
theorem load_mem_handedOver {h : List HostMove} {d : Descriptor} (hd : .load d ∈ h) :
    .load d ∈ handedOver h := by
  induction h with
  | nil => cases hd
  | cons m h ih =>
    cases hd with
    | head => exact List.mem_cons_self
    | tail _ hd =>
      cases m with
      | load | call => exact List.mem_cons_of_mem _ (ih hd)
      | ret | writePrgRom | writeChr | setMirroring => exact ih hd

/-- R140: MIRROR and the register are driven by LOAD and, the register, by a foreign write. -/
theorem Platform.move_mirror {m : HostMove} {p q : Platform} (hload : ∀ d, m ≠ .load d)
    (hsole : ∀ code, m ≠ .setMirroring code) (h : p.move m = some q) :
    q.block.mirror = p.block.mirror ∧ q.register = p.register := by
  rcases Platform.move_some h with ⟨d, s, hm, -⟩ | ⟨t, inputs, s, -, -, hstep, rfl⟩ | ⟨-, -, rfl⟩ |
    ⟨i, v, -, rfl⟩ | ⟨i, v, -, rfl⟩ | ⟨code, hm, -⟩
  · exact absurd hm (hload d)
  · obtain ⟨-, heffect⟩ := step_txn_next rfl hstep
    obtain ⟨-, -, -, hmirror, -⟩ := heffect.frame
    exact ⟨hmirror, rfl⟩
  · exact ⟨rfl, rfl⟩
  · exact ⟨rfl, rfl⟩
  · exact ⟨rfl, rfl⟩
  · exact absurd hm (hsole code)

theorem Platform.follow_mirror {h : List HostMove} {p q : Platform}
    (hload : ∀ m ∈ h, ∀ d, m ≠ .load d) (hsole : ∀ m ∈ h, ∀ code, m ≠ .setMirroring code)
    (hf : p.follow h = some q) :
    q.block.mirror = p.block.mirror ∧ q.register = p.register := by
  induction h generalizing p with
  | nil =>
    cases hf
    exact ⟨rfl, rfl⟩
  | cons m h ih =>
    obtain ⟨r, hmove, hrest⟩ := Platform.follow_cons.1 hf
    obtain ⟨hload, hload'⟩ := List.forall_mem_cons.1 hload
    obtain ⟨hsole, hsole'⟩ := List.forall_mem_cons.1 hsole
    obtain ⟨hmirror, hregister⟩ := Platform.move_mirror hload hsole hmove
    obtain ⟨hmirror', hregister'⟩ := ih hload' hsole' hrest
    exact ⟨hmirror'.trans hmirror, hregister'.trans hregister⟩

/-- Settles O49: LOAD drives VERTICAL and its code, and no move after it is a LOAD or a foreign
write of the register. -/
theorem soleMirrorWriterLeavesVertical : Obligations.SoleMirrorWriterLeavesVertical := by
  intro p q h d ts hfirst hsole hf
  have hload : ∀ m ∈ sinceLoad h, ∀ d', m ≠ .load d' := by
    rintro _ hm d' rfl
    have hmem := load_mem_handedOver hm
    rw [handedOver_sinceLoad hfirst] at hmem
    exact noReload_txns ts d' hmem
  exact Platform.follow_mirror hload hsole (Platform.follow_sinceLoad hfirst hf)

end Sys2Proof.Machine
